-- ==== Sys2Proof/Word.lean ====
section
/-! DEFINITION. The word types of the block: every register but SR, every operand word and every response datum is
32 bits wide, memory is made of bytes (spec/00_scope.md R7, R9). -/

namespace Sys2Proof

/-- A 32-bit word: a register, an address, a datum (R7). -/
abbrev Word := BitVec 32

/-- A byte of the store (R39). -/
abbrev Byte := BitVec 8

end Sys2Proof
end

