-- ==== Sys2Proof/Syntax.lean ====
section
/-! DEFINITION. The command packet (spec/30_encoding.md R80), the names its fields stand for (R89–R91), and the nine
commands (R83). A command keeps its operand fields as the decoder passes them through (R99): whether a field names something
is for the command to check, in the order of 60_exceptions.md R186. -/

namespace Sys2Proof

/-- A command packet: three 32-bit words (R80). -/
structure Packet where
  /-- The command word. -/
  cmd : Word
  /-- The address word. -/
  addr : Word
  /-- The data word. -/
  data : Word
  deriving DecidableEq, Repr

/-- The twenty register identifiers (R15, R89; 90_conflicts.md C1). -/
inductive RegId where
  | pc | sr | usp | ssp
  | d0 | d1 | d2 | d3 | d4 | d5 | d6 | d7
  | a0 | a1 | a2 | a3 | a4 | a5 | a6 | a7
  deriving DecidableEq, Repr

/-- The supported addressing modes (R91, 43_addressing_modes.md R140). -/
inductive Mode where
  /-- Register direct (data). -/
  | dataDirect
  /-- Register direct (address). -/
  | addressDirect
  /-- Address-register indirect. -/
  | indirect
  deriving DecidableEq, Repr

/-- The operand widths (R90). -/
inductive Width where
  | byte | word | long
  deriving DecidableEq, Repr

/-- The width in bytes. -/
def Width.bytes : Width → Nat
  | .byte => 1
  | .word => 2
  | .long => 4

/-- The nine commands, one per row of spec/opcode_table.json, with the fields and operand words each uses (R83–R88). -/
inductive Instr where
  /-- BOOTSTRAP. -/
  | bootstrap
  /-- INIT_REGIONS. -/
  | initRegions
  /-- GET_REG. -/
  | getReg (reg : BitVec 5)
  /-- SET_REG. -/
  | setReg (reg : BitVec 5) (data : Word)
  /-- GET_SR_BIT. -/
  | getSrBit (mask : BitVec 16)
  /-- SET_SR_BIT. -/
  | setSrBit (bit : Bool) (mask : BitVec 16)
  /-- MEM_READ. -/
  | memRead (width : BitVec 3) (addr : Word)
  /-- MEM_WRITE. -/
  | memWrite (width : BitVec 3) (addr data : Word)
  /-- MOVE. -/
  | move (dreg : BitVec 5) (dmode : BitVec 2) (sreg : BitVec 5) (smode : BitVec 2) (width : BitVec 3)
  deriving DecidableEq, Repr

end Sys2Proof
end

