-- ==== Sys2Proof/WellFormed.lean ====
section
/-! DEFINITION. Well-formed commands: those whose operand fields pass every check that depends on the command alone, not on
a parameter or on the state: register codes (spec/30_encoding.md R89), width codes (R90), mode codes (R91), status-bit masks
(10_state.md R32), the register kind a mode needs (43_addressing_modes.md R142) and the ban on memory-to-memory moves
(44_move.md R157). DESIGN CHOICE (safe, log 9): an ill-formed command still decodes and runs, into the error the spec names. -/

namespace Sys2Proof

/-- The code names one of the twenty identifiers (R89). -/
def registerNamed (code : BitVec 5) : Bool := decide (code.toNat < 20)

/-- The code is the byte count of a width (R90). -/
def widthNamed (code : BitVec 3) : Bool := code.toNat == 1 || code.toNat == 2 || code.toNat == 4

/-- The mask is one of the twelve named masks: a single bit, and not bit 5, 6, 7 or 11 (R32). -/
def maskNamed (mask : BitVec 16) : Bool :=
  [0, 1, 2, 3, 4, 8, 9, 10, 12, 13, 14, 15].any fun pos => mask.toNat == 2 ^ pos

/-- The register code is of the kind the mode needs: a data register for mode 0, an address register for modes 1 and 2; no
register suits mode 3 (R91, R142). -/
def kindMatches (reg : BitVec 5) (mode : BitVec 2) : Bool :=
  if mode.toNat = 0 then decide (4 ≤ reg.toNat ∧ reg.toNat ≤ 11)
  else if mode.toNat ≤ 2 then decide (12 ≤ reg.toNat ∧ reg.toNat ≤ 19)
  else false

/-- Every check that the command alone decides is passed. -/
def Instr.wellFormed : Instr → Bool
  | .bootstrap => true
  | .initRegions => true
  | .getReg reg => registerNamed reg
  | .setReg reg _ => registerNamed reg
  | .getSrBit mask => maskNamed mask
  | .setSrBit _ mask => maskNamed mask
  | .memRead width _ => widthNamed width
  | .memWrite width _ _ => widthNamed width
  | .move dreg dmode sreg smode width =>
    widthNamed width && kindMatches sreg smode && kindMatches dreg dmode && !(smode.toNat == 2 && dmode.toNat == 2)

end Sys2Proof
end

