-- ==== Sys2Proof/Decode.lean ====
section
/-! DEFINITION. Decoding of a command packet, total on every packet (spec/30_encoding.md R82–R88, R93, R94, R99), the tables
of the field codes (R89–R91), and the encoder written from the same formats. -/

namespace Sys2Proof

/-- Why a command word is no command; both raise INVALID_COMMAND (R93, R94). -/
inductive DecodeReject where
  /-- OP is 0x9–0xF (R93). -/
  | reservedOp
  /-- A reserved bit is not 0 (R94). -/
  | reservedBits
  deriving DecidableEq, Repr

/-- Register-identifier codes (the table of R89); codes 20–31 name no identifier. -/
def RegId.ofCode (code : BitVec 5) : Option RegId :=
  match code.toNat with
  | 0 => some .pc | 1 => some .sr | 2 => some .usp | 3 => some .ssp
  | 4 => some .d0 | 5 => some .d1 | 6 => some .d2 | 7 => some .d3
  | 8 => some .d4 | 9 => some .d5 | 10 => some .d6 | 11 => some .d7
  | 12 => some .a0 | 13 => some .a1 | 14 => some .a2 | 15 => some .a3
  | 16 => some .a4 | 17 => some .a5 | 18 => some .a6 | 19 => some .a7
  | _ => none

/-- Width codes (R90); 0, 3, 5, 6 and 7 are no widths. -/
def Width.ofCode (code : BitVec 3) : Option Width :=
  match code.toNat with
  | 1 => some .byte
  | 2 => some .word
  | 4 => some .long
  | _ => none

/-- Addressing-mode codes (R91); 3 is reserved. -/
def Mode.ofCode (code : BitVec 2) : Option Mode :=
  match code.toNat with
  | 0 => some .dataDirect
  | 1 => some .addressDirect
  | 2 => some .indirect
  | _ => none

/-- The command, if the bits its format reserves are all 0 (R94). -/
def whenClear {n : Nat} (reserved : BitVec n) (i : Instr) : Except DecodeReject Instr :=
  if reserved = 0 then .ok i else .error .reservedBits

/-- The decoder of R99. -/
def decode (p : Packet) : Except DecodeReject Instr :=
  match (p.cmd.extractLsb' 28 4).toNat with
  | 0x0 => whenClear (p.cmd.extractLsb' 0 28) .bootstrap
  | 0x1 => whenClear (p.cmd.extractLsb' 0 28) .initRegions
  | 0x2 => whenClear (p.cmd.extractLsb' 5 23) (.getReg (p.cmd.extractLsb' 0 5))
  | 0x3 => whenClear (p.cmd.extractLsb' 5 23) (.setReg (p.cmd.extractLsb' 0 5) p.data)
  | 0x4 => whenClear (p.cmd.extractLsb' 16 12) (.getSrBit (p.cmd.extractLsb' 0 16))
  | 0x5 => whenClear (p.cmd.extractLsb' 17 11) (.setSrBit (p.cmd.getLsbD 16) (p.cmd.extractLsb' 0 16))
  | 0x6 => whenClear (p.cmd.extractLsb' 3 25) (.memRead (p.cmd.extractLsb' 0 3) p.addr)
  | 0x7 => whenClear (p.cmd.extractLsb' 3 25) (.memWrite (p.cmd.extractLsb' 0 3) p.addr p.data)
  | 0x8 =>
    whenClear (p.cmd.extractLsb' 17 11)
      (.move (p.cmd.extractLsb' 12 5) (p.cmd.extractLsb' 10 2) (p.cmd.extractLsb' 5 5) (p.cmd.extractLsb' 3 2)
        (p.cmd.extractLsb' 0 3))
  | _ => .error .reservedOp

/-- The packet of a command (R83–R88): its word, and 0 in each operand word it does not use. -/
def encode : Instr → Packet
  | .bootstrap => ⟨0x0#4 ++ 0#28, 0, 0⟩
  | .initRegions => ⟨0x1#4 ++ 0#28, 0, 0⟩
  | .getReg reg => ⟨0x2#4 ++ 0#23 ++ reg, 0, 0⟩
  | .setReg reg data => ⟨0x3#4 ++ 0#23 ++ reg, 0, data⟩
  | .getSrBit mask => ⟨0x4#4 ++ 0#12 ++ mask, 0, 0⟩
  | .setSrBit bit mask => ⟨0x5#4 ++ 0#11 ++ BitVec.ofBool bit ++ mask, 0, 0⟩
  | .memRead width addr => ⟨0x6#4 ++ 0#25 ++ width, addr, 0⟩
  | .memWrite width addr data => ⟨0x7#4 ++ 0#25 ++ width, addr, data⟩
  | .move dreg dmode sreg smode width => ⟨0x8#4 ++ 0#11 ++ dreg ++ dmode ++ sreg ++ smode ++ width, 0, 0⟩

/-- The command uses the ADDR word (the table of R83). -/
def Instr.usesAddr : Instr → Bool
  | .memRead _ _ => true
  | .memWrite _ _ _ => true
  | _ => false

/-- The command uses the DATA word (the table of R83). -/
def Instr.usesData : Instr → Bool
  | .setReg _ _ => true
  | .memWrite _ _ _ => true
  | _ => false

/-- The packet whose bits are `w`, of which the opcode table gives `nbits` (higher bits are 0): CMD in bits 31–0, ADDR in
bits 63–32 ("word 1"), DATA in bits 95–64 ("word 2"), the order of R80. DEDUCED (safe, log 8). -/
def Packet.ofTableWord (nbits w : Nat) : Packet :=
  let bits := BitVec.ofNat 96 (w % 2 ^ nbits)
  ⟨bits.extractLsb' 0 32, bits.extractLsb' 32 32, bits.extractLsb' 64 32⟩

/-- The command the decoder reads from an instruction whose bits are `w`, numbered as spec/opcode_table.json numbers them. -/
def decodeTableWord (nbits w : Nat) : Option Instr := (decode (Packet.ofTableWord nbits w)).toOption

end Sys2Proof
end

