-- ==== Sys2Proof/Machine/BitOps.lean ====
section
/-! DEFINITION. The BitOps unit (spec/00_scope.md R12, R13), truncation at a width (R10), and the positions of the SR bits
(10_state.md R30). -/

namespace Sys2Proof.Machine

/-- The index of the least significant 1 bit (R12). It has no value at 0, where the spec gives none and no command asks
(93_implementation_defined.md U16; log 7). -/
def lsb (x : Word) : Option Nat := (List.range 32).find? fun i => x.getLsbD i

/-- Bit `pos` becomes `b`, every other bit is unchanged (R13). -/
def setbit (word : Word) (pos : Nat) (b : Bool) : Word :=
  (word &&& ~~~(1#32 <<< pos)) ||| ((BitVec.ofBool b).setWidth 32 <<< pos)

/-- `setbit` on the 16 bits of SR (R34). -/
def srSet (sr : BitVec 16) (pos : Nat) (b : Bool) : BitVec 16 := (setbit (sr.setWidth 32) pos b).setWidth 16

/-- `mask(w) = 2^(8*w) - 1` (R10). -/
def widthMask (w : Width) : Word := BitVec.ofNat 32 (2 ^ (8 * w.bytes) - 1)

/-- `trunc_(8*w)`, kept in 32 bits (R10). -/
def truncTo (w : Width) (v : Word) : Word := v &&& widthMask w

/-- C, CARRY (R30). -/
def bitC : Nat := 0
/-- V, OVERFLOW (R30). -/
def bitV : Nat := 1
/-- Z, ZERO (R30). -/
def bitZ : Nat := 2
/-- N, NEGATIVE (R30). -/
def bitN : Nat := 3
/-- X, EXTEND (R30), the last bit the gate leaves open (R31). -/
def bitX : Nat := 4
/-- S, SUPERVISOR_STATE (R30). -/
def bitS : Nat := 13

/-- The twelve named status-bit masks (R32). -/
def namedMasks : List (BitVec 16) :=
  [0x0001, 0x0002, 0x0004, 0x0008, 0x0010, 0x0100, 0x0200, 0x0400, 0x1000, 0x2000, 0x4000, 0x8000]

end Sys2Proof.Machine
end

