-- ==== Sys2Proof/Config.lean ====
section
/-! DEFINITION. What is fixed for one instance of the block: the model parameters of spec/00_scope.md R8 with their
defaults, the capacity of the store, and the type of a region-table entry. MEM_INIT and REG_INIT, the other two parameters
of R8, are the arguments of `State.powerOn` (Machine/State.lean). -/

namespace Sys2Proof

/-- The values of INDIRECT_WIDTH_RULE (R8, 43_addressing_modes.md R143). -/
inductive IndirectWidthRule where
  | sourceOnly
  | both
  | none
  deriving DecidableEq, Repr

/-- The parameters of R8 that select a behaviour. DESIGN CHOICE (safe, log 1): they are data of the instance, so that a
statement about every state is a statement about every choice of them. -/
structure Params where
  /-- STRICT_REGIONS (R56, D11). -/
  strictRegions : Bool
  /-- ROM_WRITE_PROTECT (R59, D12). -/
  romWriteProtect : Bool
  /-- SR_PORT_GATED (R38, D15). -/
  srPortGated : Bool
  /-- PRIV_GATE_ENABLED (R31, D20). -/
  privGateEnabled : Bool
  /-- NFLAG_BIT7_ONLY (R160, D19). -/
  nflagBit7Only : Bool
  /-- ZFLAG_ALWAYS_SET (R160, D19). -/
  zflagAlwaysSet : Bool
  /-- INDIRECT_WIDTH_RULE (R143, D24). -/
  indirectWidthRule : IndirectWidthRule
  /-- BUS_FAULT_RECOVERABLE (R184, D26). -/
  busFaultRecoverable : Bool
  deriving DecidableEq, Repr

/-- The defaults of R8. -/
def Params.default : Params where
  strictRegions := false
  romWriteProtect := false
  srPortGated := false
  privGateEnabled := true
  nflagBit7Only := false
  zflagAlwaysSet := false
  indirectWidthRule := .sourceOnly
  busFaultRecoverable := false

/-- The number of bytes of the store (R7, R39). -/
def capacity : Nat := 0x1000000

/-- The two named regions (R40, R52). -/
inductive RegionName where
  | rom
  | ram
  deriving DecidableEq, Repr

/-- One entry of the region table (R40). -/
structure Region where
  name : RegionName
  base : Nat
  size : Nat
  deriving DecidableEq, Repr

end Sys2Proof
end

