-- ==== Sys2Proof/Machine/State.lean ====
section
/-! DEFINITION. The state of one instance of the block (spec/10_state.md R20–R43), its error records and responses
(30_encoding.md R81, R95–R97), power-on (R43, R210) and reset. State is plain data. -/

namespace Sys2Proof.Machine

/-- The storage cells of the register file (R20): there is none for A7. All are 32 bits wide but SR (R7). Their values at
power-on are the parameter REG_INIT (R8), which is one `Regs`. -/
structure Regs where
  pc : Word
  sr : BitVec 16
  usp : Word
  ssp : Word
  d0 : Word
  d1 : Word
  d2 : Word
  d3 : Word
  d4 : Word
  d5 : Word
  d6 : Word
  d7 : Word
  a0 : Word
  a1 : Word
  a2 : Word
  a3 : Word
  a4 : Word
  a5 : Word
  a6 : Word
  deriving DecidableEq, Repr

/-- The lifecycle (R29). -/
inductive Life where
  | uninitialized
  | ready
  deriving DecidableEq, Repr

/-- The direction of a memory access (R54, R97). -/
inductive Dir where
  | read
  | write
  deriving DecidableEq, Repr

/-- The causes of an internal-invariant violation (R96, R181). -/
inductive InvariantKind where
  | invalidCommand
  | invalidRegister
  | invalidMode
  | invalidWidth
  | registerModeMismatch
  | indirectWidth
  | indirectToIndirect
  | invalidMask
  deriving DecidableEq, Repr

/-- The two kinds of error (R180), each with what its record holds (R28, R97). DESIGN CHOICE (safe, log 12): the
record is held as typed data. -/
inductive Error where
  | invariant (kind : InvariantKind)
  | busFault (addr : Word) (width : Width) (dir : Dir)
  deriving DecidableEq, Repr

/-- The response packet (R81). -/
structure Response where
  status : BitVec 2
  rdata : Word
  subcode : BitVec 4
  faddr : Word
  fwidth : BitVec 3
  fdir : BitVec 1
  deriving DecidableEq, Repr

/-- The state of one instance. -/
structure State where
  /-- The parameters of R8, fixed for the instance (the model's own field, log 1). -/
  params : Params
  /-- The register file (R20). -/
  regs : Regs
  /-- The lifecycle state (R29). -/
  life : Life
  /-- The halted latch (R28). -/
  halted : Bool
  /-- The record of the first latched error (R28, R184). -/
  fault : Option Error
  /-- The byte store (R39): cells with rising addresses, none equal to what an unlisted address reads as (log 3). -/
  mem : List Host.Cell
  /-- The command port: the packets the driver outside the block issues, in order (the model's own field, log 4). -/
  inbox : List Packet
  /-- The response port: the last response placed on it (the model's own field, log 5). -/
  response : Option Response
  deriving DecidableEq, Repr

/-- The reasons a step stops the machine: none. The spec's errors are reported on the response port and latched, and the
block goes on answering (R183–R187; 93_implementation_defined.md has no "stuck" case), so they are next states. DEDUCED
(safe, log 6). -/
inductive Fault where
  deriving DecidableEq, Repr

/-- The reasons a step has no meaning. -/
inductive Refusal where
  /-- Raised by an arm of `exec` whose instruction has no meaning yet; no arm raises it. Safe: nothing is claimed of such a
  run. -/
  | notModelled (mnemonic : String)
  deriving DecidableEq, Repr

/-- Power-on of an instance (R43, R210) with its parameters, its REG_INIT and its MEM_INIT (a byte array, as memory cells). -/
def State.powerOn (params : Params) (regInit : Regs) (memInit : List Host.Cell) : State where
  params := params
  regs := regInit
  life := .uninitialized
  halted := false
  fault := none
  mem := memInit
  inbox := []
  response := none

/-- Every register cell 0. DESIGN CHOICE (unsafe, log 2): the spec leaves REG_INIT open. -/
def Regs.zero : Regs :=
  ⟨0, 0, 0, 0, 0, 0, 0, 0, 0, 0, 0, 0, 0, 0, 0, 0, 0, 0, 0⟩

/-- The machine right after reset, which is power-on (R211), at the default parameters (R8). DESIGN CHOICE (unsafe, logs 2
and 3): registers 0 and no memory cell listed. -/
def State.reset : State := State.powerOn Params.default Regs.zero []

end Sys2Proof.Machine
end

