-- ==== Sys2Proof/Machine/Memory.lean ====
section
/-! DEFINITION. The byte store in its canonical form, and the address decoder in front of it: regions, checks, sized reads
and writes (spec/20_memory.md R50–R63). -/

namespace Sys2Proof.Machine

/-- The byte store: the bytes listed, every other address reading as `unlistedByte`. -/
abbrev Memory := List Host.Cell

/-- What an address that is not listed reads as. DESIGN CHOICE (unsafe for a claim about `State.reset` alone, log 3): the spec
leaves MEM_INIT open, and any MEM_INIT is some list of cells over this byte. -/
def unlistedByte : Byte := 0x00

/-- The byte at an address. -/
def Memory.readByte (m : Memory) (a : Nat) : Byte :=
  match m with
  | [] => unlistedByte
  | (k, b) :: rest => if k = a then b else Memory.readByte rest a

/-- The cell for a byte, none where the byte is what an unlisted address reads as. -/
def cellFor (a : Nat) (b : Byte) : Memory := if b = unlistedByte then [] else [(a, b)]

/-- Store one byte, keeping the canonical form. -/
def Memory.writeByte (m : Memory) (a : Nat) (b : Byte) : Memory :=
  match m with
  | [] => cellFor a b
  | (k, c) :: rest =>
    if k < a then (k, c) :: Memory.writeByte rest a b
    else if k = a then cellFor a b ++ rest
    else cellFor a b ++ (k, c) :: rest

/-- Store bytes at rising addresses. -/
def Memory.writeBytes (m : Memory) (a : Nat) (bytes : List Byte) : Memory :=
  match bytes with
  | [] => m
  | b :: rest => Memory.writeBytes (m.writeByte a b) (a + 1) rest

/-- The canonical form: addresses strictly rising and inside the store (R39), no cell equal to an unlisted byte. -/
abbrev Memory.wf (m : Memory) : Prop :=
  m.Pairwise (fun x y => x.1 < y.1) ∧ ∀ c ∈ m, c.1 < capacity ∧ c.2 ≠ unlistedByte

/-- The region table, a constant of the hardware (R40, R52; log 10). -/
def regionTable : List Region :=
  [{ name := .rom, base := 0x000000, size := 0x400000 }, { name := .ram, base := 0xFF0000, size := 0x10000 }]

/-- The region of a byte address, none in the gap (R53). -/
def regionOf (a : Nat) : Option RegionName :=
  (regionTable.find? fun r => decide (r.base ≤ a ∧ a < r.base + r.size)).map (·.name)

/-- The bounds check (R54), on exact sums (R55) of the whole 32-bit address (R51). -/
def inBounds (a : Word) (w : Width) : Bool := decide (a.toNat + w.bytes ≤ capacity)

/-- Every byte of the access lies in one region (R56). -/
def inOneRegion (a : Word) (w : Width) : Bool :=
  (regionOf a.toNat).isSome && regionOf (a.toNat + w.bytes - 1) == regionOf a.toNat

/-- Some byte of the access lies in the ROM region (R59). -/
def touchesRom (a : Word) (w : Width) : Bool :=
  (List.range w.bytes).any fun i => regionOf (a.toNat + i) == some .rom

/-- The checks of the decoder, in the order of R60. -/
def checkAccess (p : Params) (a : Word) (w : Width) (dir : Dir) : Except Error Unit :=
  if !inBounds a w then .error (.busFault a w dir)
  else if p.strictRegions && !inOneRegion a w then .error (.busFault a w dir)
  else if p.romWriteProtect && dir == .write && touchesRom a w then .error (.busFault a w dir)
  else .ok ()

/-- The bytes of an access, the lowest address most significant, zero-extended (R57, R61). -/
def Memory.readSized (m : Memory) (a : Nat) (w : Width) : Word :=
  match w with
  | .byte => (m.readByte a).setWidth 32
  | .word => (m.readByte a ++ m.readByte (a + 1)).setWidth 32
  | .long => m.readByte a ++ m.readByte (a + 1) ++ m.readByte (a + 2) ++ m.readByte (a + 3)

/-- The `w` low bytes of a value, the most significant first: `u[8*(w-1-i)+7 : 8*(w-1-i)]` for `i` in `0 .. w-1` (R58). -/
def bigEndianBytes (w : Width) (v : Word) : List Byte :=
  (List.range w.bytes).map fun i => v.extractLsb' (8 * (w.bytes - 1 - i)) 8

/-- The sized read (R57). -/
def memRead (p : Params) (m : Memory) (a : Word) (w : Width) : Except Error Word := do
  checkAccess p a w .read
  return m.readSized a.toNat w

/-- The sized write (R58). -/
def memWrite (p : Params) (m : Memory) (a : Word) (w : Width) (v : Word) : Except Error Memory := do
  checkAccess p a w .write
  return m.writeBytes a.toNat (bigEndianBytes w v)

end Sys2Proof.Machine
end

