-- ==== Sys2Proof/Machine/Ops.lean ====
section
/-! DEFINITION. The operations the commands share: the register file's cells and ports (spec/10_state.md R20–R26, R38), the
privilege gate and the status-bit accesses (R31–R34), the responses (30_encoding.md R81, R95–R97), taking an error
(60_exceptions.md R183–R185) and performing a command. There is no return from an error to stand beside taking one: the block
has no such command (R188). -/

namespace Sys2Proof.Machine

/-! ### The register file -/

/-- The nineteen storage cells (R20). -/
inductive RegCell where
  | pc | sr | usp | ssp
  | d0 | d1 | d2 | d3 | d4 | d5 | d6 | d7
  | a0 | a1 | a2 | a3 | a4 | a5 | a6
  deriving DecidableEq, Repr

/-- A cell's content, SR zero-extended (R24). -/
def Regs.get (c : RegCell) (r : Regs) : Word :=
  match c with
  | .pc => r.pc | .sr => r.sr.setWidth 32 | .usp => r.usp | .ssp => r.ssp
  | .d0 => r.d0 | .d1 => r.d1 | .d2 => r.d2 | .d3 => r.d3
  | .d4 => r.d4 | .d5 => r.d5 | .d6 => r.d6 | .d7 => r.d7
  | .a0 => r.a0 | .a1 => r.a1 | .a2 => r.a2 | .a3 => r.a3
  | .a4 => r.a4 | .a5 => r.a5 | .a6 => r.a6

/-- Store into one cell, SR keeping the low 16 bits; no other cell changes (R25). -/
def Regs.set (c : RegCell) (v : Word) (r : Regs) : Regs :=
  match c with
  | .pc => { r with pc := v } | .sr => { r with sr := v.setWidth 16 }
  | .usp => { r with usp := v } | .ssp => { r with ssp := v }
  | .d0 => { r with d0 := v } | .d1 => { r with d1 := v } | .d2 => { r with d2 := v } | .d3 => { r with d3 := v }
  | .d4 => { r with d4 := v } | .d5 => { r with d5 := v } | .d6 => { r with d6 := v } | .d7 => { r with d7 := v }
  | .a0 => { r with a0 := v } | .a1 => { r with a1 := v } | .a2 => { r with a2 := v } | .a3 => { r with a3 := v }
  | .a4 => { r with a4 := v } | .a5 => { r with a5 := v } | .a6 => { r with a6 := v }

/-- The cell an identifier names, A7 naming SSP in supervisor mode and USP in user mode (R20, R26). -/
def registerCell (r : RegId) (supervisor : Bool) : RegCell :=
  match r with
  | .pc => .pc | .sr => .sr | .usp => .usp | .ssp => .ssp
  | .d0 => .d0 | .d1 => .d1 | .d2 => .d2 | .d3 => .d3
  | .d4 => .d4 | .d5 => .d5 | .d6 => .d6 | .d7 => .d7
  | .a0 => .a0 | .a1 => .a1 | .a2 => .a2 | .a3 => .a3
  | .a4 => .a4 | .a5 => .a5 | .a6 => .a6
  | .a7 => if supervisor then .ssp else .usp

/-- Supervisor mode: S is 1 (R26, R191). -/
def State.supervisor (s : State) : Bool := s.regs.sr.getLsbD bitS

/-- The privilege gate at an SR bit position (R31). -/
def State.gated (s : State) (pos : Nat) : Bool :=
  s.params.privGateEnabled && s.life == .ready && !s.supervisor && decide (bitX < pos)

/-- The whole-register SR access is gated: SR_PORT_GATED, and the gate is active above EXTEND (R38). -/
def State.srPortClosed (s : State) : Bool := s.params.srPortGated && s.gated 5

/-! ### Named updates of State -/

/-- Replace the register file. -/
def State.withRegs (r : Regs) (s : State) : State := { s with regs := r }

/-- Replace SR. -/
def State.withSr (sr : BitVec 16) (s : State) : State := { s with regs := { s.regs with sr := sr } }

/-- Replace the byte store. -/
def State.withMem (m : Memory) (s : State) : State := { s with mem := m }

/-- Enter a lifecycle state. -/
def State.withLife (l : Life) (s : State) : State := { s with life := l }

/-- Set the halted latch and record the error (R28). -/
def State.latch (e : Error) (s : State) : State := { s with halted := true, fault := some e }

/-- Place a response on the response port (R81). -/
def State.respond (r : Response) (s : State) : State := { s with response := some r }

/-! ### Register ports -/

/-- The register read port `x[r]` (R24, R38). -/
def State.readReg (s : State) (r : RegId) : Word :=
  match registerCell r s.supervisor with
  | .sr => if s.srPortClosed then (s.regs.sr &&& 0x001F).setWidth 32 else s.regs.sr.setWidth 32
  | c => s.regs.get c

/-- The register write port `x[r] <- v` (R25, R38). -/
def State.writeReg (r : RegId) (v : Word) (s : State) : State :=
  match registerCell r s.supervisor with
  | .sr =>
    if s.srPortClosed then s.withSr ((s.regs.sr &&& 0xFFE0) ||| (v.setWidth 16 &&& 0x001F)) else s.withSr (v.setWidth 16)
  | c => s.withRegs (s.regs.set c v)

/-- The identifier a register code names, or INVALID_REGISTER (R89). -/
def checkRegister (code : BitVec 5) : Except Error RegId :=
  match RegId.ofCode code with
  | some r => .ok r
  | none => .error (.invariant .invalidRegister)

/-- The width a code names, or INVALID_WIDTH (R90). -/
def checkWidth (code : BitVec 3) : Except Error Width :=
  match Width.ofCode code with
  | some w => .ok w
  | none => .error (.invariant .invalidWidth)

/-! ### Status bits -/

/-- The position a status-bit mask selects, or INVALID_MASK (R32). -/
def statusBitPos (mask : BitVec 16) : Except Error Nat :=
  if mask ∈ namedMasks then
    match lsb (mask.setWidth 32) with
    | some pos => .ok pos
    | none => .error (.invariant .invalidMask)
  else .error (.invariant .invalidMask)

/-- The gated status-bit read `sr_bit_get` (R33). -/
def State.srBitGet (mask : BitVec 16) (s : State) : Except Error Bool := do
  let pos ← statusBitPos mask
  return if s.gated pos then false else s.regs.sr.getLsbD pos

/-- The gated status-bit write `sr_bit_set` (R34). -/
def State.srBitSet (mask : BitVec 16) (b : Bool) (s : State) : Except Error State := do
  let pos ← statusBitPos mask
  return if s.gated pos then s else s.withSr (srSet s.regs.sr pos b)

/-! ### Responses -/

/-- STATUS = OK with its datum (R81, R95). -/
def Response.ok (data : Word) : Response :=
  { status := 0, rdata := data, subcode := 0, faddr := 0, fwidth := 0, fdir := 0 }

/-- STATUS = HALTED (R95, R185). -/
def Response.halted : Response := { status := 3, rdata := 0, subcode := 0, faddr := 0, fwidth := 0, fdir := 0 }

/-- SUBCODE of an internal-invariant violation (the table of R96). -/
def InvariantKind.subcode : InvariantKind → BitVec 4
  | .invalidCommand => 1
  | .invalidRegister => 2
  | .invalidMode => 3
  | .invalidWidth => 4
  | .registerModeMismatch => 5
  | .indirectWidth => 6
  | .indirectToIndirect => 7
  | .invalidMask => 8

/-- FDIR (R97). -/
def Dir.code : Dir → BitVec 1
  | .read => 0
  | .write => 1

/-- STATUS = BUS_FAULT or INVARIANT with its details (R95–R97). -/
def Response.ofError (e : Error) : Response :=
  match e with
  | .invariant kind => { status := 2, rdata := 0, subcode := kind.subcode, faddr := 0, fwidth := 0, fdir := 0 }
  | .busFault a w dir =>
    { status := 1, rdata := 0, subcode := 0, faddr := a, fwidth := BitVec.ofNat 3 w.bytes, fdir := dir.code }

/-! ### Taking an error, and performing a command -/

/-- The error is a bus fault (R182). -/
def Error.isBusFault : Error → Bool
  | .invariant _ => false
  | .busFault _ _ _ => true

/-- Taking an error: it is reported and, unless it is a bus fault of a block with BUS_FAULT_RECOVERABLE, latched; nothing
else happens (R183, R184, R187). -/
def State.raise (e : Error) (s : State) : State :=
  if e.isBusFault && s.params.busFaultRecoverable then s.respond (.ofError e)
  else (s.latch e).respond (.ofError e)

/-- What a command comes to: an error, or the state with its effect and the datum of its response. -/
abbrev Result := Except Error (State × Word)

/-- The end of a command (R81, R183): its effect and an OK response, or its error. -/
def State.finish (s : State) (r : Result) : State :=
  match r with
  | .ok (t, data) => t.respond (.ok data)
  | .error e => s.raise e

/-- Perform a command: a halted block answers HALTED and does nothing (R185), the first check of R186. DEDUCED
(safe, log 11): the check stands here, for every command. -/
def perform (command : State → Result) (s : State) : Host.Outcome State Fault Refusal :=
  .next (if s.halted then s.respond .halted else s.finish (command s))

/-- A command word that is no command (R93, R94, R186). -/
def rejectCommand (s : State) : Host.Outcome State Fault Refusal :=
  perform (fun _ => .error (.invariant .invalidCommand)) s

/-! ### The command port -/

/-- Take the next packet from the command port (R6, R80, R218; log 4). -/
def State.accept (s : State) : Option (Packet × State) :=
  match s.inbox with
  | [] => none
  | p :: rest => some (p, { s with inbox := rest })

/-- Put a packet on the command port, ahead of what the driver issues later. -/
def State.offer (p : Packet) (s : State) : State := { s with inbox := p :: s.inbox }

end Sys2Proof.Machine
end

