-- ==== Sys2Proof/Machine/AddressSpace.lean ====
section
/-! DEFINITION. The address-space commands (spec/42_address_space.md R130–R132). -/

namespace Sys2Proof.Machine

/-- INIT_REGIONS (R132): the table is a constant, so nothing changes. -/
def execInitRegions (s : State) : Host.Outcome State Fault Refusal :=
  perform (fun s => .ok (s, 0)) s

/-- MEM_READ (R130). -/
def execMemRead (width : BitVec 3) (addr : Word) (s : State) : Host.Outcome State Fault Refusal :=
  perform (fun s => do
    let w ← checkWidth width
    let v ← memRead s.params s.mem addr w
    return (s, v)) s

/-- MEM_WRITE (R131). -/
def execMemWrite (width : BitVec 3) (addr data : Word) (s : State) : Host.Outcome State Fault Refusal :=
  perform (fun s => do
    let w ← checkWidth width
    let m ← memWrite s.params s.mem addr w data
    return (s.withMem m, 0)) s

end Sys2Proof.Machine
end

