-- ==== Sys2Proof/Machine/Bootstrap.lean ====
section
/-! DEFINITION. BOOTSTRAP (spec/45_bootstrap.md R175–R177). -/

namespace Sys2Proof.Machine

/-- BOOTSTRAP (R175): S is set directly, not through the gate, and the block is Ready. -/
def execBootstrap (s : State) : Host.Outcome State Fault Refusal :=
  perform (fun s => .ok ((s.withSr (srSet s.regs.sr bitS true)).withLife .ready, 0)) s

end Sys2Proof.Machine
end

