-- ==== Sys2Proof/Machine/Flags.lean ====
section
/-! DEFINITION. The flag computation unit (spec/44_move.md R159–R161). MOVE is its only user. -/

namespace Sys2Proof.Machine

/-- N: the sign bit at the width, or bit 7 under NFLAG_BIT7_ONLY (R160). -/
def flagN (p : Params) (r : Word) (w : Width) : Bool :=
  if p.nflagBit7Only then r.getLsbD 7 else (truncTo w r).getLsbD (8 * w.bytes - 1)

/-- Z: the value is 0 at the width, or always under ZFLAG_ALWAYS_SET (R160). -/
def flagZ (p : Params) (r : Word) (w : Width) : Bool :=
  if p.zflagAlwaysSet then true else truncTo w r == 0

/-- The SR after a MOVE (R160): N and Z from the result, V and C 0, the other bits as they were. -/
def moveFlags (p : Params) (r : Word) (w : Width) (sr : BitVec 16) : BitVec 16 :=
  srSet (srSet (srSet (srSet sr bitN (flagN p r w)) bitZ (flagZ p r w)) bitV false) bitC false

end Sys2Proof.Machine
end

