-- ==== Sys2Proof/Machine/Operands.lean ====
section
/-! DEFINITION. The addressing-mode resolver and the sized load/store unit (spec/43_addressing_modes.md R140–R149). -/

namespace Sys2Proof.Machine

/-- Which operand of a MOVE. -/
inductive Role where
  | source
  | destination
  deriving DecidableEq, Repr

/-- An operand that passed its checks: a register and a supported mode (R140). -/
structure Operand where
  reg : RegId
  mode : Mode
  deriving DecidableEq, Repr

/-- A resolved destination (R145). -/
inductive Location where
  /-- A register, with the content kept for the merge. -/
  | reg (r : RegId) (old : Word)
  /-- A memory address. -/
  | mem (addr : Word)
  deriving DecidableEq, Repr

/-- A data register, D0–D7 (R142). -/
def isDataRegister : RegId → Bool
  | .d0 | .d1 | .d2 | .d3 | .d4 | .d5 | .d6 | .d7 => true
  | _ => false

/-- An address register, A0–A7 (R142). -/
def isAddressRegister : RegId → Bool
  | .a0 | .a1 | .a2 | .a3 | .a4 | .a5 | .a6 | .a7 => true
  | _ => false

/-- The register is of the kind the mode names (R142). -/
def kindSuits (mode : Mode) (r : RegId) : Bool :=
  match mode with
  | .dataDirect => isDataRegister r
  | .addressDirect => isAddressRegister r
  | .indirect => isAddressRegister r

/-- INDIRECT_WIDTH_RULE applies to the operand (R143). -/
def indirectWidthChecked (p : Params) (role : Role) : Bool :=
  match p.indirectWidthRule, role with
  | .sourceOnly, .source => true
  | .sourceOnly, .destination => false
  | .both, _ => true
  | .none, _ => false

/-- The mode check (R140). -/
def checkMode (code : BitVec 2) : Except Error Mode :=
  match Mode.ofCode code with
  | some m => .ok m
  | none => .error (.invariant .invalidMode)

/-- The register-kind check (R142). -/
def checkKind (mode : Mode) (r : RegId) : Except Error Unit :=
  if kindSuits mode r then .ok () else .error (.invariant .registerModeMismatch)

/-- The indirect width check (R143). -/
def checkIndirectWidth (p : Params) (role : Role) (mode : Mode) (w : Width) : Except Error Unit :=
  if mode == .indirect && w != .long && indirectWidthChecked p role then .error (.invariant .indirectWidth) else .ok ()

/-- The checks of one operand, in the order of R186: mode, register, kind, indirect width (R140–R143). -/
def checkOperand (p : Params) (role : Role) (reg : BitVec 5) (mode : BitVec 2) (w : Width) : Except Error Operand := do
  let m ← checkMode mode
  let r ← checkRegister reg
  checkKind m r
  checkIndirectWidth p role m w
  return ⟨r, m⟩

/-- The source value (R144, R148): the whole register, or the memory at the address the register holds. -/
def resolveSource (s : State) (op : Operand) (w : Width) : Except Error Word :=
  match op.mode with
  | .dataDirect => .ok (s.readReg op.reg)
  | .addressDirect => .ok (s.readReg op.reg)
  | .indirect => memRead s.params s.mem (s.readReg op.reg) w

/-- The destination, resolved without writing (R145, R148). -/
def resolveDestination (s : State) (op : Operand) : Location :=
  match op.mode with
  | .dataDirect => .reg op.reg (s.readReg op.reg)
  | .addressDirect => .reg op.reg (s.readReg op.reg)
  | .indirect => .mem (s.readReg op.reg)

/-- Both operands indirect (R157). -/
def checkNotBothIndirect (src dst : Operand) : Except Error Unit :=
  if src.mode == .indirect && dst.mode == .indirect then .error (.invariant .indirectToIndirect) else .ok ()

/-- The merge of a value into a register at a width (R146). -/
def merge (old v : Word) (w : Width) : Word :=
  match w with
  | .byte => (old &&& 0xFFFFFF00) ||| (v &&& 0x000000FF)
  | .word => (old &&& 0xFFFF0000) ||| (v &&& 0x0000FFFF)
  | .long => v

/-- The sized store: the state written, and the result the flag unit reads (R147). -/
def storeSized (loc : Location) (v : Word) (w : Width) (s : State) : Except Error (State × Word) :=
  match loc with
  | .reg r old => .ok (s.writeReg r (merge old v w), merge old v w)
  | .mem a => do
    let m ← memWrite s.params s.mem a w v
    return (s.withMem m, truncTo w v)

end Sys2Proof.Machine
end

