-- ==== Sys2Proof/Machine/Move.lean ====
section
/-! DEFINITION. MOVE (spec/44_move.md R155–R165). -/

namespace Sys2Proof.Machine

/-- MOVE (R155), in the order of its numbered steps and of R186. -/
def moveCommand (dreg : BitVec 5) (dmode : BitVec 2) (sreg : BitVec 5) (smode : BitVec 2) (width : BitVec 3) (s : State) :
    Result := do
  let w ← checkWidth width
  let src ← checkOperand s.params .source sreg smode w
  let v ← resolveSource s src w
  let dst ← checkOperand s.params .destination dreg dmode w
  checkNotBothIndirect src dst
  let (t, r) ← storeSized (resolveDestination s dst) v w s
  return (t.withSr (moveFlags s.params r w t.regs.sr), 0)

/-- MOVE. -/
def execMove (dreg : BitVec 5) (dmode : BitVec 2) (sreg : BitVec 5) (smode : BitVec 2) (width : BitVec 3) (s : State) :
    Host.Outcome State Fault Refusal :=
  perform (moveCommand dreg dmode sreg smode width) s

end Sys2Proof.Machine
end

