-- ==== Sys2Proof/Machine/RegisterFile.lean ====
section
/-! DEFINITION. The register-file and status-bit commands (spec/41_register_file.md R120–R124). None of them is privileged
(R124). -/

namespace Sys2Proof.Machine

/-- GET_REG (R120). -/
def execGetReg (reg : BitVec 5) (s : State) : Host.Outcome State Fault Refusal :=
  perform (fun s => do
    let r ← checkRegister reg
    return (s, s.readReg r)) s

/-- SET_REG (R121). -/
def execSetReg (reg : BitVec 5) (data : Word) (s : State) : Host.Outcome State Fault Refusal :=
  perform (fun s => do
    let r ← checkRegister reg
    return (s.writeReg r data, 0)) s

/-- GET_SR_BIT (R122). -/
def execGetSrBit (mask : BitVec 16) (s : State) : Host.Outcome State Fault Refusal :=
  perform (fun s => do
    let b ← s.srBitGet mask
    return (s, (BitVec.ofBool b).setWidth 32)) s

/-- SET_SR_BIT (R123). -/
def execSetSrBit (bit : Bool) (mask : BitVec 16) (s : State) : Host.Outcome State Fault Refusal :=
  perform (fun s => do
    let t ← s.srBitSet mask bit
    return (t, 0)) s

end Sys2Proof.Machine
end

