-- ==== Sys2Proof/Machine/Dispatch.lean ====
section
/-! DEFINITION. The meaning of each command (spec/30_encoding.md R83), one arm per constructor of Instr. -/

namespace Sys2Proof.Machine

def exec (i : Instr) (s : State) : Host.Outcome State Fault Refusal :=
  match i with
  | .bootstrap => Sys2Proof.Machine.execBootstrap s
  | .initRegions => Sys2Proof.Machine.execInitRegions s
  | .getReg reg => Sys2Proof.Machine.execGetReg reg s
  | .setReg reg data => Sys2Proof.Machine.execSetReg reg data s
  | .getSrBit mask => Sys2Proof.Machine.execGetSrBit mask s
  | .setSrBit bit mask => Sys2Proof.Machine.execSetSrBit bit mask s
  | .memRead width addr => Sys2Proof.Machine.execMemRead width addr s
  | .memWrite width addr data => Sys2Proof.Machine.execMemWrite width addr data s
  | .move dreg dmode sreg smode width => Sys2Proof.Machine.execMove dreg dmode sreg smode width s

end Sys2Proof.Machine
end

