-- ==== Sys2Proof/Machine/Step.lean ====
section
/-! DEFINITION. One step: the next command packet is taken from the command port, decoded and performed (spec/00_scope.md R6,
30_encoding.md R99). -/

namespace Sys2Proof.Machine

/-- One step. With no packet on the command port the block does nothing (DESIGN CHOICE, safe, log 5). -/
def step (s : State) : Host.Outcome State Fault Refusal :=
  match s.accept with
  | none => .next s
  | some (p, t) =>
    match decode p with
    | .ok i => exec i t
    | .error _ => rejectCommand t

/-- The state whose next step takes the command whose bits are `w`, numbered as spec/opcode_table.json numbers them: its packet
stands first on the command port (log 4). -/
def State.withFetchWord (s : State) (nbits w : Nat) : State := s.offer (Packet.ofTableWord nbits w)

end Sys2Proof.Machine
end

