-- ==== Sys2Proof/Safety.lean ====
section
/-! DEFINITION. The terms in which claims about the block are made: the invariant of its state, the command a step performs,
and the spec's conditions on accesses, status bits and MOVE operands, written from the spec's own numbers and not through the
machine's checks. -/

namespace Sys2Proof.Machine

/-- The access passes every check of the decoder, by the numbers of spec/20_memory.md: inside the store (R54), wholly inside
ROM (0x000000–0x3FFFFF) or RAM (0xFF0000–0xFFFFFF) under STRICT_REGIONS (R52, R56), and no write into ROM under
ROM_WRITE_PROTECT (R59). -/
abbrev AccessAllowed (p : Params) (a : Word) (w : Width) (dir : Dir) : Prop :=
  a.toNat + w.bytes ≤ 0x1000000 ∧
  (p.strictRegions = true → a.toNat + w.bytes ≤ 0x400000 ∨ 0xFF0000 ≤ a.toNat) ∧
  (p.romWriteProtect = true → dir = .write → 0x400000 ≤ a.toNat)

/-- The gate of 10_state.md R31 at an SR bit position. -/
abbrev State.Gate (s : State) (pos : Nat) : Prop :=
  s.params.privGateEnabled = true ∧ s.life = .ready ∧ s.regs.sr.getLsbD 13 = false ∧ 4 < pos

/-- The positions of the named status bits (the table of 10_state.md R30). -/
def namedPositions : List Nat := [0, 1, 2, 3, 4, 8, 9, 10, 12, 13, 14, 15]

/-- What every state of the block satisfies: the store is in canonical form; the latch and the record go together (R28); and a
recorded bus fault is that of an access that was not allowed, in a block where bus faults halt (R184). -/
structure State.Inv (s : State) : Prop where
  memory : Memory.wf s.mem
  latch : s.halted = s.fault.isSome
  record : ∀ a w dir, s.fault = some (.busFault a w dir) →
    ¬ AccessAllowed s.params a w dir ∧ s.params.busFaultRecoverable = false

/-- The next step performs this command: the block is not halted and the next packet decodes to it. -/
def State.Performs (s : State) (i : Instr) : Prop :=
  s.halted = false ∧ ∃ p rest, s.inbox = p :: rest ∧ decode p = .ok i

/-- The command, performed in this state, would store to the byte at `x`: the bytes of a MEM_WRITE (R58, R131), or those at the
pointer of a MOVE's indirect destination (R147, R148). -/
def State.StoresTo (s : State) (i : Instr) (x : Nat) : Prop :=
  match i with
  | .memWrite width addr _ => addr.toNat ≤ x ∧ x < addr.toNat + width.toNat
  | .move dreg dmode _ _ width =>
    dmode = 2 ∧ ∃ r, RegId.ofCode dreg = some r ∧ (s.readReg r).toNat ≤ x ∧ x < (s.readReg r).toNat + width.toNat
  | _ => False

/-- The source operand of a MOVE passes its checks and yields this value (43_addressing_modes.md R142–R144): a data register
(codes 4–11) in mode 0, an address register (codes 12–19) in mode 1, the memory it points to in mode 2. -/
def MoveSource (s : State) (sreg : BitVec 5) (smode : BitVec 2) (w : Width) (v : Word) : Prop :=
  ∃ r, RegId.ofCode sreg = some r ∧
    ((smode = 0 ∧ 4 ≤ sreg.toNat ∧ sreg.toNat ≤ 11 ∧ v = s.readReg r) ∨
     (smode = 1 ∧ 12 ≤ sreg.toNat ∧ v = s.readReg r) ∨
     (smode = 2 ∧ 12 ≤ sreg.toNat ∧ (w = .long ∨ s.params.indirectWidthRule = .none) ∧
       AccessAllowed s.params (s.readReg r) w .read ∧ v = Memory.readSized s.mem (s.readReg r).toNat w))

/-- `new` is the SR that a MOVE of the result `r` leaves from `old` (44_move.md R160), bit by bit. -/
def FlagsAfterMove (p : Params) (r : Word) (w : Width) (old new : BitVec 16) : Prop :=
  new.getLsbD 0 = false ∧ new.getLsbD 1 = false ∧
  new.getLsbD 2 = (p.zflagAlwaysSet || decide (r.toNat % 2 ^ (8 * w.bytes) = 0)) ∧
  new.getLsbD 3 = (if p.nflagBit7Only then r.getLsbD 7 else r.getLsbD (8 * w.bytes - 1)) ∧
  ∀ j, 4 ≤ j → j < 16 → new.getLsbD j = old.getLsbD j

/-- The checks of a MOVE in the order of 60_exceptions.md R186, item 6, each with the error it reports. -/
def moveCheckList (s : State) (dreg : BitVec 5) (dmode : BitVec 2) (sreg : BitVec 5) (smode : BitVec 2) (width : BitVec 3) :
    List (Bool × Error) :=
  let w := (Width.ofCode width).getD .byte
  let sptr := s.readReg ((RegId.ofCode sreg).getD .pc)
  let dptr := s.readReg ((RegId.ofCode dreg).getD .pc)
  let notLong := decide (width.toNat ≠ 4)
  [ (decide (width.toNat ≠ 1 ∧ width.toNat ≠ 2 ∧ width.toNat ≠ 4), .invariant .invalidWidth),
    (decide (smode.toNat = 3), .invariant .invalidMode),
    (decide (20 ≤ sreg.toNat), .invariant .invalidRegister),
    (!kindMatches sreg smode, .invariant .registerModeMismatch),
    (decide (smode.toNat = 2) && notLong && decide (s.params.indirectWidthRule ≠ .none), .invariant .indirectWidth),
    (decide (smode.toNat = 2 ∧ ¬ AccessAllowed s.params sptr w .read), .busFault sptr w .read),
    (decide (dmode.toNat = 3), .invariant .invalidMode),
    (decide (20 ≤ dreg.toNat), .invariant .invalidRegister),
    (!kindMatches dreg dmode, .invariant .registerModeMismatch),
    (decide (dmode.toNat = 2) && notLong && decide (s.params.indirectWidthRule = .both), .invariant .indirectWidth),
    (decide (smode.toNat = 2 ∧ dmode.toNat = 2), .invariant .indirectToIndirect),
    (decide (dmode.toNat = 2 ∧ ¬ AccessAllowed s.params dptr w .write), .busFault dptr w .write) ]

/-- The first error of the list, none where every check is passed. -/
def firstError (checks : List (Bool × Error)) : Option Error := (checks.find? (·.1)).map (·.2)

/-- SR with bits 15–5 hidden: what a closed SR port shows (R38). -/
def lowSr (sr : BitVec 16) : BitVec 16 := sr &&& 0x001F

/-- Two states that differ, if at all, in SR bits above EXTEND only. -/
def State.AgreeBelowGate (s t : State) : Prop :=
  lowSr s.regs.sr = lowSr t.regs.sr ∧ s.withSr (lowSr s.regs.sr) = t.withSr (lowSr t.regs.sr)

/-- User mode of a Ready block with every gate closed: PRIV_GATE_ENABLED and SR_PORT_GATED (R31, R38). -/
def State.Confined (s : State) : Prop :=
  s.params.privGateEnabled = true ∧ s.params.srPortGated = true ∧ s.life = .ready ∧ s.regs.sr.getLsbD 13 = false

end Sys2Proof.Machine
end

