-- ==== Sys2Proof/Certificates/Slice0/Obligations.lean ====
section
/-! DEFINITION. The statements for the provers, from the numbered rules of spec/, in the order of OBLIGATIONS.json. A statement
over all states is one over all parameters of R8 and over every REG_INIT and MEM_INIT (logs 1 to 3). Where a statement speaks of
`inbox`, the packets waiting on the command port, that field is the model's own (log 4); so is `response`, the response port's last
response (log 5), and the canonical form of the store (log 3). -/

open Sys2Proof Sys2Proof.Machine

/-! ### Encoding and the step -/

/-- Words written out from the formats of R83–R88 decode to the commands they stand for, and words with a reserved OP or a
reserved bit to none (95_test_vectors.md E4–E9, 2.1–2.3). -/
def Obligations.WordsOfTheSpecDecode : Prop :=
  decode ⟨0x00000000, 7, 9⟩ = .ok .bootstrap ∧
  decode ⟨0x10000000, 0, 0⟩ = .ok .initRegions ∧
  decode ⟨0x20000013, 0, 0⟩ = .ok (.getReg 19) ∧
  decode ⟨0x30000005, 0, 0x12345678⟩ = .ok (.setReg 5 0x12345678) ∧
  decode ⟨0x40002000, 0, 0⟩ = .ok (.getSrBit 0x2000) ∧
  decode ⟨0x50018000, 0, 0⟩ = .ok (.setSrBit true 0x8000) ∧
  decode ⟨0x50002000, 0, 0⟩ = .ok (.setSrBit false 0x2000) ∧
  decode ⟨0x60000002, 0xFF0010, 0⟩ = .ok (.memRead 2 0xFF0010) ∧
  decode ⟨0x70000004, 0xFF0000, 0x11223344⟩ = .ok (.memWrite 4 0xFF0000 0x11223344) ∧
  decode ⟨0x8000D994, 0, 0⟩ = .ok (.move 13 2 12 2 4) ∧
  decode ⟨0x80013501, 0, 0⟩ = .ok (.move 19 1 8 0 1) ∧
  decode ⟨0x90000000, 0, 0⟩ = .error .reservedOp ∧
  decode ⟨0xF0000000, 0, 0⟩ = .error .reservedOp ∧
  decode ⟨0x00000001, 0, 0⟩ = .error .reservedBits ∧
  decode ⟨0x20000020, 0, 0⟩ = .error .reservedBits ∧
  decode ⟨0x40010004, 0, 0⟩ = .error .reservedBits ∧
  decode ⟨0x60000009, 0, 0⟩ = .error .reservedBits ∧
  decode ⟨0x800240A1, 0, 0⟩ = .error .reservedBits

/-- Decoding the packet of a command gives the command back, with every operand at every value (R82–R88, R99). -/
def Obligations.DecodeOfEncodeIsTheCommand : Prop :=
  ∀ i : Instr, decode (encode i) = .ok i

/-- Each command word stands for one command: the packet of the command decoded has the same command word, and the same
operand words where the command uses them (R83, R99). -/
def Obligations.EncodeOfDecodeIsThePacket : Prop :=
  ∀ (p : Packet) (i : Instr), decode p = .ok i →
    (encode i).cmd = p.cmd ∧ (i.usesAddr = true → (encode i).addr = p.addr) ∧ (i.usesData = true → (encode i).data = p.data)

/-- An operand word that a command does not use has no effect (R80): changing it changes neither the command decoded nor,
therefore, the step. -/
def Obligations.UnusedOperandWordsAreIgnored : Prop :=
  ∀ (s : State) (p : Packet) (i : Instr) (a d : Word), decode p = .ok i →
    let p' : Packet := ⟨p.cmd, if i.usesAddr then p.addr else a, if i.usesData then p.data else d⟩
    decode p' = .ok i ∧ step (s.offer p') = step (s.offer p)

/-- A command word is a command exactly when it matches a row of the opcode table (mask and match), that is, when OP is 0x0–0x8
and the bits its format reserves are 0 (R93, R94). -/
def Obligations.CommandWordsAreTheTableRows : Prop :=
  ∀ p : Packet, (∃ i, decode p = .ok i) ↔
    (p.cmd &&& 0xFFFFFFFF = 0x00000000 ∨ p.cmd &&& 0xFFFFFFFF = 0x10000000 ∨ p.cmd &&& 0xFFFFFFE0 = 0x20000000 ∨
     p.cmd &&& 0xFFFFFFE0 = 0x30000000 ∨ p.cmd &&& 0xFFFF0000 = 0x40000000 ∨ p.cmd &&& 0xFFFE0000 = 0x50000000 ∨
     p.cmd &&& 0xFFFFFFF8 = 0x60000000 ∨ p.cmd &&& 0xFFFFFFF8 = 0x70000000 ∨ p.cmd &&& 0xFFFE0000 = 0x80000000)

/-- A reserved OP (R93) or a nonzero reserved bit (R94) raises INVALID_COMMAND and has no other effect. -/
def Obligations.ReservedEncodingsRaiseInvalidCommand : Prop :=
  ∀ (s : State) (p : Packet) (rest : List Packet), s.inbox = p :: rest → s.halted = false →
    let op := p.cmd.toNat / 2 ^ 28
    let low := p.cmd.toNat % 2 ^ 28
    (9 ≤ op ∨ ((op = 0 ∨ op = 1) ∧ low ≠ 0) ∨ ((op = 2 ∨ op = 3) ∧ low / 2 ^ 5 ≠ 0) ∨ (op = 4 ∧ low / 2 ^ 16 ≠ 0) ∨
      ((op = 5 ∨ op = 8) ∧ low / 2 ^ 17 ≠ 0) ∨ ((op = 6 ∨ op = 7) ∧ low / 2 ^ 3 ≠ 0)) →
    step s = .next { s with
      inbox := rest
      halted := true
      fault := some (.invariant .invalidCommand)
      response := some { status := 2, rdata := 0, subcode := 1, faddr := 0, fwidth := 0, fdir := 0 } }

/-- A step performs the command that the next packet decodes to, in the state where that packet is taken (R6, R99). The command
port is the model's own (log 4). -/
def Obligations.StepPerformsTheDecodedCommand : Prop :=
  ∀ (s : State) (p : Packet) (rest : List Packet) (i : Instr), s.inbox = p :: rest → decode p = .ok i →
    step s = exec i { s with inbox := rest }

/-- With no packet on the command port a step changes nothing. The model's choice (log 5). -/
def Obligations.StepWithoutCommandChangesNothing : Prop :=
  ∀ s : State, s.inbox = [] → step s = .next s

/-- Every packet taken produces one response, whose fields are 0 where R81 says so: RDATA but for the three reading commands
that complete, SUBCODE but for INVARIANT (where it is 1–8), the bus-fault fields but for BUS_FAULT. -/
def Obligations.EveryCommandIsAnsweredOnce : Prop :=
  ∀ (s : State) (p : Packet) (rest : List Packet), s.inbox = p :: rest →
    ∃ t r, step s = .next t ∧ t.inbox = rest ∧ t.response = some r ∧
      (r.status ≠ 0 → r.rdata = 0) ∧
      (∀ i, decode p = .ok i →
        (∀ c, i ≠ .getReg c) → (∀ m, i ≠ .getSrBit m) → (∀ w a, i ≠ .memRead w a) → r.rdata = 0) ∧
      (r.status ≠ 2 → r.subcode = 0) ∧ (r.status = 2 → 1 ≤ r.subcode.toNat ∧ r.subcode.toNat ≤ 8) ∧
      (r.status ≠ 1 → r.faddr = 0 ∧ r.fwidth = 0 ∧ r.fdir = 0)

/-! ### Errors and the halted block -/

/-- The response and the latch of each error: STATUS (R95), SUBCODE (R96), FADDR, FWIDTH and FDIR (R97), and the halt latch
with its one exemption (R184). -/
def Obligations.ErrorsAreReportedAndLatched : Prop :=
  ∀ s : State,
    (∀ kn ∈ [(InvariantKind.invalidCommand, 1#4), (.invalidRegister, 2), (.invalidMode, 3), (.invalidWidth, 4),
        (.registerModeMismatch, 5), (.indirectWidth, 6), (.indirectToIndirect, 7), (.invalidMask, 8)],
      s.raise (.invariant kn.1) = { s with
        halted := true
        fault := some (.invariant kn.1)
        response := some { status := 2, rdata := 0, subcode := kn.2, faddr := 0, fwidth := 0, fdir := 0 } }) ∧
    (∀ a w dir,
      let r : Response := { status := 1, rdata := 0, subcode := 0, faddr := a, fwidth := BitVec.ofNat 3 w.bytes,
                            fdir := if dir = .read then 0 else 1 }
      s.raise (.busFault a w dir) =
        if s.params.busFaultRecoverable then { s with response := some r }
        else { s with halted := true, fault := some (.busFault a w dir), response := some r })

/-- A command that raises an error changes no register, no SR bit, no memory byte and no lifecycle state; its only effects are
its response and the halt latch (R183), which R184 exempts a recoverable bus fault from. -/
def Obligations.ErrorsHaveNoOtherEffect : Prop :=
  ∀ (s t : State) (p : Packet) (rest : List Packet) (r : Response), s.halted = false → s.inbox = p :: rest →
    step s = .next t → t.response = some r → r.status ≠ 0 →
    t.regs = s.regs ∧ t.mem = s.mem ∧ t.life = s.life ∧ t.params = s.params ∧ t.inbox = rest ∧
    ∃ e, r = .ofError e ∧
      ((∃ a w dir, e = .busFault a w dir) ∧ s.params.busFaultRecoverable = true → t.halted = s.halted ∧ t.fault = s.fault) ∧
      (¬ ((∃ a w dir, e = .busFault a w dir) ∧ s.params.busFaultRecoverable = true) → t.halted = true ∧ t.fault = some e)

/-- While halted, every packet, valid or not, is answered HALTED with RDATA 0 and changes no state (R185). -/
def Obligations.HaltedBlockPerformsNothing : Prop :=
  ∀ (s : State) (p : Packet) (rest : List Packet), s.halted = true → s.inbox = p :: rest →
    step s = .next { s with
      inbox := rest
      response := some { status := 3, rdata := 0, subcode := 0, faddr := 0, fwidth := 0, fdir := 0 } }

/-- Nothing in the block clears the latch or its record (R28, R185): a run of any length from a halted state changes no
register, no memory byte, no lifecycle state and no record. -/
def Obligations.HaltIsPermanentOverEveryRun : Prop :=
  ∀ (k : Nat) (s : State), s.halted = true →
    ∃ t, Host.Core.run Sys2Proof.core k s = .next t ∧ t.halted = true ∧ t.fault = s.fault ∧ t.regs = s.regs ∧
      t.mem = s.mem ∧ t.life = s.life ∧ t.params = s.params ∧ t.inbox = s.inbox.drop k

/-! ### Register commands -/

/-- The register read port, identifier by identifier (R24, with R38 for SR): GET_REG completes and answers the register. -/
def Obligations.GetRegAnswersTheRegister : Prop :=
  ∀ (s : State) (cv : BitVec 5 × Word), s.halted = false →
    cv ∈ [(0, s.regs.pc),
      (1, if s.params.srPortGated = true ∧ s.Gate 5 then (s.regs.sr &&& 0x001F).setWidth 32 else s.regs.sr.setWidth 32),
      (2, s.regs.usp), (3, s.regs.ssp),
      (4, s.regs.d0), (5, s.regs.d1), (6, s.regs.d2), (7, s.regs.d3),
      (8, s.regs.d4), (9, s.regs.d5), (10, s.regs.d6), (11, s.regs.d7),
      (12, s.regs.a0), (13, s.regs.a1), (14, s.regs.a2), (15, s.regs.a3),
      (16, s.regs.a4), (17, s.regs.a5), (18, s.regs.a6),
      (19, if s.regs.sr.getLsbD 13 then s.regs.ssp else s.regs.usp)] →
    exec (.getReg cv.1) s = .next (s.respond (.ok cv.2))

/-- The register write port, identifier by identifier (R25, with R38 for SR): SET_REG completes, writes the one cell, and leaves
everything else as it was. -/
def Obligations.SetRegWritesTheRegister : Prop :=
  ∀ (s : State) (v : Word) (cr : BitVec 5 × Regs), s.halted = false →
    cr ∈ [(0, { s.regs with pc := v }),
      (1, { s.regs with sr := if s.params.srPortGated = true ∧ s.Gate 5
            then (s.regs.sr &&& 0xFFE0) ||| (v.setWidth 16 &&& 0x001F) else v.setWidth 16 }),
      (2, { s.regs with usp := v }), (3, { s.regs with ssp := v }),
      (4, { s.regs with d0 := v }), (5, { s.regs with d1 := v }), (6, { s.regs with d2 := v }), (7, { s.regs with d3 := v }),
      (8, { s.regs with d4 := v }), (9, { s.regs with d5 := v }), (10, { s.regs with d6 := v }), (11, { s.regs with d7 := v }),
      (12, { s.regs with a0 := v }), (13, { s.regs with a1 := v }), (14, { s.regs with a2 := v }),
      (15, { s.regs with a3 := v }), (16, { s.regs with a4 := v }), (17, { s.regs with a5 := v }),
      (18, { s.regs with a6 := v }),
      (19, if s.regs.sr.getLsbD 13 then { s.regs with ssp := v } else { s.regs with usp := v })] →
    exec (.setReg cr.1 v) s = .next { s with regs := cr.2, response := some (.ok 0) }

/-- Codes 20–31 name no register: GET_REG and SET_REG raise INVALID_REGISTER (R89, R120, R121). -/
def Obligations.UnnamedRegisterCodesRaise : Prop :=
  ∀ (s : State) (c : BitVec 5) (v : Word), s.halted = false → 20 ≤ c.toNat →
    exec (.getReg c) s = .next (s.raise (.invariant .invalidRegister)) ∧
    exec (.setReg c v) s = .next (s.raise (.invariant .invalidRegister))

/-- Register round trip: SET_REG then GET_REG of the same identifier answers the value, its low 16 bits for SR (R121 and
95_test_vectors.md E1), with the SR port open. -/
def Obligations.RegisterRoundTrip : Prop :=
  ∀ (s : State) (c : BitVec 5) (v : Word), s.halted = false → s.params.srPortGated = false → c.toNat < 20 →
    ∃ t, exec (.setReg c v) s = .next t ∧
      exec (.getReg c) t = .next (t.respond (.ok (if c = 1 then v &&& 0x0000FFFF else v)))

/-- A write of S by SET_REG SR, SET_SR_BIT or BOOTSTRAP changes at once the stack pointer that A7 names and the gate of the
status bits (R216, R26), here seen by the next GET_REG A7 and the next GET_SR_BIT T1. -/
def Obligations.ModeSwitchIsImmediate : Prop :=
  ∀ (s t : State) (i : Instr) (sup : Bool), s.halted = false →
    ((∃ v : Word, i = .setReg 1 v ∧ ¬ (s.params.srPortGated = true ∧ s.Gate 5) ∧ sup = v.getLsbD 13) ∨
     (∃ b, i = .setSrBit b 0x2000 ∧ ¬ s.Gate 13 ∧ sup = b) ∨ (i = .bootstrap ∧ sup = true)) →
    exec i s = .next t →
    t.regs.sr.getLsbD 13 = sup ∧
    exec (.getReg 19) t = .next (t.respond (.ok (if sup then s.regs.ssp else s.regs.usp))) ∧
    exec (.getSrBit 0x8000) t =
      .next (t.respond (.ok (if t.params.privGateEnabled = true ∧ t.life = .ready ∧ sup = false then 0
        else if t.regs.sr.getLsbD 15 then 1 else 0)))

/-! ### Status-bit commands -/

/-- The lowest-set-bit unit gives the index of the least significant 1 bit (R12), so at a named mask the position of its
bit. -/
def Obligations.LowestSetBitIsTheLeastIndex : Prop :=
  (∀ x : Word, x ≠ 0 → ∃ i, lsb x = some i ∧ i < 32 ∧ x.getLsbD i = true ∧ ∀ j, j < i → x.getLsbD j = false) ∧
  ∀ pos ∈ namedPositions, lsb ((1#16 <<< pos).setWidth 32) = some pos

/-- GET_SR_BIT of a named bit completes and answers the bit, or 0 where it is gated (R33, R122). -/
def Obligations.GetSrBitAnswersTheBit : Prop :=
  ∀ (s : State) (pos : Nat), s.halted = false → pos ∈ namedPositions →
    exec (.getSrBit (1#16 <<< pos)) s =
      .next (s.respond (.ok (if s.Gate pos then 0 else if s.regs.sr.getLsbD pos then 1 else 0)))

/-- SET_SR_BIT of a named bit completes: where it is gated nothing changes, else that bit of SR is written and no other bit, and
nothing else of the state changes (R34, R123). -/
def Obligations.SetSrBitWritesTheBit : Prop :=
  ∀ (s : State) (pos : Nat) (b : Bool), s.halted = false → pos ∈ namedPositions →
    ∃ sr', exec (.setSrBit b (1#16 <<< pos)) s = .next { s with regs := { s.regs with sr := sr' }, response := some (.ok 0) } ∧
      (s.Gate pos → sr' = s.regs.sr) ∧
      (¬ s.Gate pos → ∀ j, j < 16 → sr'.getLsbD j = if j = pos then b else s.regs.sr.getLsbD j)

/-- A mask other than the twelve named ones raises INVALID_MASK in both status-bit commands; a named one selects the position of
its lowest set bit (R32), and the read answers 0 where that position is gated and the bit where it is not (R33). -/
def Obligations.OnlyNamedMasksAreAccepted : Prop :=
  ∀ (s : State) (mask : BitVec 16) (b : Bool), s.halted = false →
    let named := mask ∈ [0x0001#16, 0x0002, 0x0004, 0x0008, 0x0010, 0x0100, 0x0200, 0x0400, 0x1000, 0x2000, 0x4000, 0x8000]
    (¬ named →
      exec (.getSrBit mask) s = .next (s.raise (.invariant .invalidMask)) ∧
      exec (.setSrBit b mask) s = .next (s.raise (.invariant .invalidMask))) ∧
    (named → ∃ pos, lsb (mask.setWidth 32) = some pos ∧
      exec (.getSrBit mask) s = .next (s.respond (.ok (if s.Gate pos then 0 else if s.regs.sr.getLsbD pos then 1 else 0))) ∧
      ∃ t, exec (.setSrBit b mask) s = .next t ∧ t.response = some (.ok 0) ∧ (¬ s.Gate pos → t.regs.sr.getLsbD pos = b))

/-- Status-bit round trip: a named bit that is not gated, set to 1, reads 1 with no other bit changed, and set to 0 again reads
0 (95_test_vectors.md E3). -/
def Obligations.StatusBitRoundTrip : Prop :=
  ∀ (s : State) (pos : Nat), s.halted = false → pos ∈ namedPositions → ¬ s.Gate pos →
    ∃ t u, exec (.setSrBit true (1#16 <<< pos)) s = .next t ∧
      (∀ j, j < 16 → j ≠ pos → t.regs.sr.getLsbD j = s.regs.sr.getLsbD j) ∧
      exec (.getSrBit (1#16 <<< pos)) t = .next (t.respond (.ok 1)) ∧
      exec (.setSrBit false (1#16 <<< pos)) t = .next u ∧
      exec (.getSrBit (1#16 <<< pos)) u = .next (u.respond (.ok 0))

/-- Before Ready the gate is inert: in either mode every named bit is read as stored and written (R176, R214). -/
def Obligations.GateIsInertBeforeReady : Prop :=
  ∀ (s : State) (pos : Nat) (b : Bool), s.halted = false → s.life = .uninitialized → pos ∈ namedPositions →
    exec (.getSrBit (1#16 <<< pos)) s = .next (s.respond (.ok (if s.regs.sr.getLsbD pos then 1 else 0))) ∧
    ∃ t, exec (.setSrBit b (1#16 <<< pos)) s = .next t ∧ t.response = some (.ok 0) ∧ t.regs.sr.getLsbD pos = b

/-! ### Memory commands -/

/-- MEM_READ of an allowed access completes and answers the bytes, the lowest address most significant, zero-extended, changing
nothing (R57, R130). -/
def Obligations.MemReadAnswersTheBytes : Prop :=
  ∀ (s : State) (a : Word), s.halted = false →
    let byteAt := fun k => Memory.readByte s.mem (a.toNat + k)
    (AccessAllowed s.params a .byte .read →
      exec (.memRead 1 a) s = .next (s.respond (.ok ((byteAt 0).setWidth 32)))) ∧
    (AccessAllowed s.params a .word .read →
      exec (.memRead 2 a) s = .next (s.respond (.ok ((byteAt 0 ++ byteAt 1).setWidth 32)))) ∧
    (AccessAllowed s.params a .long .read →
      exec (.memRead 4 a) s = .next (s.respond (.ok (byteAt 0 ++ byteAt 1 ++ byteAt 2 ++ byteAt 3))))

/-- MEM_WRITE of an allowed access completes: byte `i` of the `w` bytes at the address becomes `u[8*(w-1-i)+7 : 8*(w-1-i)]`,
every other byte reads as before, nothing but memory changes, and the store keeps its canonical form (R58, R131). -/
def Obligations.MemWriteStoresTheBytes : Prop :=
  ∀ (s : State) (c : BitVec 3) (w : Width) (a v : Word), s.halted = false → Memory.wf s.mem → Width.ofCode c = some w →
    AccessAllowed s.params a w .write →
    ∃ m, exec (.memWrite c a v) s = .next { s with mem := m, response := some (.ok 0) } ∧ Memory.wf m ∧
      (∀ i, i < w.bytes → Memory.readByte m (a.toNat + i) = v.extractLsb' (8 * (w.bytes - 1 - i)) 8) ∧
      (∀ x, x < a.toNat ∨ a.toNat + w.bytes ≤ x → Memory.readByte m x = Memory.readByte s.mem x)

/-- An access that is not allowed raises the bus fault of that access, read or write (R54, R56, R59). -/
def Obligations.ForbiddenAccessesRaiseBusFaults : Prop :=
  ∀ (s : State) (c : BitVec 3) (w : Width) (a v : Word), s.halted = false → Width.ofCode c = some w →
    (¬ AccessAllowed s.params a w .read → exec (.memRead c a) s = .next (s.raise (.busFault a w .read))) ∧
    (¬ AccessAllowed s.params a w .write → exec (.memWrite c a v) s = .next (s.raise (.busFault a w .write)))

/-- The width codes are the widths in bytes, and a code other than 1, 2 and 4 raises INVALID_WIDTH in every command with a width,
whatever its other operands (R90). -/
def Obligations.InvalidWidthsRaise : Prop :=
  Width.ofCode 1 = some .byte ∧ Width.ofCode 2 = some .word ∧ Width.ofCode 4 = some .long ∧
  (∀ (c : BitVec 3) (w : Width), Width.ofCode c = some w → w.bytes = c.toNat) ∧
  ∀ (s : State) (c : BitVec 3) (a v : Word) (dreg sreg : BitVec 5) (dmode smode : BitVec 2), s.halted = false →
    c ∈ [0#3, 3, 5, 6, 7] →
    exec (.memRead c a) s = .next (s.raise (.invariant .invalidWidth)) ∧
    exec (.memWrite c a v) s = .next (s.raise (.invariant .invalidWidth)) ∧
    exec (.move dreg dmode sreg smode c) s = .next (s.raise (.invariant .invalidWidth))

/-- A write then a read at the same address and width answers the value truncated to the width (R58; 95_test_vectors.md E5). -/
def Obligations.MemoryRoundTrip : Prop :=
  ∀ (s : State) (c : BitVec 3) (w : Width) (a v : Word), s.halted = false → Memory.wf s.mem → Width.ofCode c = some w →
    AccessAllowed s.params a w .write →
    ∃ t, exec (.memWrite c a v) s = .next t ∧
      exec (.memRead c a) t = .next (t.respond (.ok (BitVec.ofNat 32 (v.toNat % 2 ^ (8 * w.bytes)))))

/-- Mixed widths see big-endian bytes (R61): after a longword write of `v` at `a`, a byte read at `a` answers its top byte, at
`a+3` its low byte, and a word read at `a+1` its middle bytes. -/
def Obligations.MixedWidthReadsAreBigEndian : Prop :=
  ∀ (s t : State) (a v : Word), s.halted = false → Memory.wf s.mem → s.params.strictRegions = false →
    AccessAllowed s.params a .long .write → exec (.memWrite 4 a v) s = .next t →
    exec (.memRead 1 a) t = .next (t.respond (.ok (v >>> 24))) ∧
    exec (.memRead 1 (a + 3)) t = .next (t.respond (.ok (v &&& 0xFF))) ∧
    exec (.memRead 2 (a + 1)) t = .next (t.respond (.ok ((v >>> 8) &&& 0xFFFF)))

/-- INIT_REGIONS completes with no change of state, so that every command after it does what it would have done before it
(R132). -/
def Obligations.InitRegionsHasNoEffect : Prop :=
  ∀ s : State, s.halted = false →
    exec .initRegions s = .next (s.respond (.ok 0)) ∧ ∀ (t : State) (j : Instr), exec .initRegions s = .next t → exec j t = exec j s

/-- Equal memories are equal data: two stores in canonical form that read alike at every address are the same list (log 3). -/
def Obligations.CanonicalStoresAreDeterminedByTheirBytes : Prop :=
  ∀ m m' : Memory, Memory.wf m → Memory.wf m' → (∀ x, Memory.readByte m x = Memory.readByte m' x) → m = m'

/-! ### MOVE -/

/-- MOVE to a register completes: the destination's low `8*w` bits become the source's and its other bits stay (R146, R156), the
flags are those of the result (R160), and nothing else changes; for a source in a data register, in an address register or in
memory (R144, R155). -/
def Obligations.MoveToRegisterMergesTheValue : Prop :=
  ∀ (s : State) (dreg : BitVec 5) (dmode : BitVec 2) (sreg : BitVec 5) (smode : BitVec 2) (c : BitVec 3) (w : Width)
    (v : Word) (rd : RegId), s.halted = false → Width.ofCode c = some w → MoveSource s sreg smode w v →
    RegId.ofCode dreg = some rd → (dmode = 0 ∧ 4 ≤ dreg.toNat ∧ dreg.toNat ≤ 11 ∨ dmode = 1 ∧ 12 ≤ dreg.toNat) →
    ∃ result sr', exec (.move dreg dmode sreg smode c) s = .next (((s.writeReg rd result).withSr sr').respond (.ok 0)) ∧
      (∀ j, j < 32 → result.getLsbD j = if j < 8 * w.bytes then v.getLsbD j else (s.readReg rd).getLsbD j) ∧
      FlagsAfterMove s.params result w s.regs.sr sr'

/-- MOVE to memory completes: the source's low `8*w` bits are stored big-endian at the pointer in the destination's address
register (R147, R148, R156), every other byte reads as before, the flags are those of the value (R159, R160), and nothing else
changes. -/
def Obligations.MoveToMemoryStoresTheValue : Prop :=
  ∀ (s : State) (dreg sreg : BitVec 5) (smode : BitVec 2) (c : BitVec 3) (w : Width) (v : Word) (rd : RegId),
    s.halted = false → Memory.wf s.mem → Width.ofCode c = some w → MoveSource s sreg smode w v → smode ≠ 2 →
    RegId.ofCode dreg = some rd → 12 ≤ dreg.toNat → (w = .long ∨ s.params.indirectWidthRule ≠ .both) →
    AccessAllowed s.params (s.readReg rd) w .write →
    ∃ m sr', exec (.move dreg 2 sreg smode c) s =
        .next { s with mem := m, regs := { s.regs with sr := sr' }, response := some (.ok 0) } ∧
      (∀ k, k < w.bytes → Memory.readByte m ((s.readReg rd).toNat + k) = v.extractLsb' (8 * (w.bytes - 1 - k)) 8) ∧
      (∀ x, x < (s.readReg rd).toNat ∨ (s.readReg rd).toNat + w.bytes ≤ x → Memory.readByte m x = Memory.readByte s.mem x) ∧
      FlagsAfterMove s.params v w s.regs.sr sr'

/-- MOVE reports the first error in the order of R186, item 6, and completes when there is none. -/
def Obligations.MoveReportsItsFirstError : Prop :=
  ∀ (s : State) (dreg : BitVec 5) (dmode : BitVec 2) (sreg : BitVec 5) (smode : BitVec 2) (c : BitVec 3), s.halted = false →
    match firstError (moveCheckList s dreg dmode sreg smode c) with
    | some e => exec (.move dreg dmode sreg smode c) s = .next (s.raise e)
    | none => ∃ t, exec (.move dreg dmode sreg smode c) s = .next t ∧ t.response = some (.ok 0)

/-- A MOVE with both operands indirect raises INDIRECT_TO_INDIRECT once both operands pass their own checks and the source is
read, and writes nothing, even where the destination could not be written (R157). -/
def Obligations.MemoryToMemoryMoveIsRejected : Prop :=
  ∀ (s : State) (dreg sreg : BitVec 5) (rs : RegId) (c : BitVec 3) (w : Width), s.halted = false → Width.ofCode c = some w →
    (w = .long ∨ s.params.indirectWidthRule = .none) → RegId.ofCode sreg = some rs → 12 ≤ sreg.toNat → 12 ≤ dreg.toNat →
    dreg.toNat < 20 → AccessAllowed s.params (s.readReg rs) w .read →
    exec (.move dreg 2 sreg 2 c) s = .next (s.raise (.invariant .indirectToIndirect)) ∧
    (s.raise (.invariant .indirectToIndirect)).regs = s.regs ∧ (s.raise (.invariant .indirectToIndirect)).mem = s.mem

/-- MOVE of a register to itself leaves the register file as it was but for N, Z, V and C (R162). -/
def Obligations.MoveToItselfChangesOnlyFlags : Prop :=
  ∀ (s : State) (reg : BitVec 5) (mode : BitVec 2) (c : BitVec 3) (w : Width) (r : RegId), s.halted = false →
    Width.ofCode c = some w → RegId.ofCode reg = some r →
    (mode = 0 ∧ 4 ≤ reg.toNat ∧ reg.toNat ≤ 11 ∨ mode = 1 ∧ 12 ≤ reg.toNat) →
    ∃ sr', exec (.move reg mode reg mode c) s = .next { s with regs := { s.regs with sr := sr' }, response := some (.ok 0) } ∧
      FlagsAfterMove s.params (s.readReg r) w s.regs.sr sr'

/-- MOVE is the same in both lifecycle states, and in both modes where no operand names A7 (R165, R26). -/
def Obligations.MoveIsTheSameInEveryModeAndLifecycle : Prop :=
  ∀ (s t : State) (dreg : BitVec 5) (dmode : BitVec 2) (sreg : BitVec 5) (smode : BitVec 2) (c : BitVec 3),
    exec (.move dreg dmode sreg smode c) s = .next t →
    (∀ l, exec (.move dreg dmode sreg smode c) (s.withLife l) = .next (t.withLife l)) ∧
    (dreg ≠ 19 → sreg ≠ 19 →
      exec (.move dreg dmode sreg smode c) (s.withSr (s.regs.sr ^^^ 0x2000)) = .next (t.withSr (t.regs.sr ^^^ 0x2000)))

/-! ### BOOTSTRAP, power-on and reset -/

/-- BOOTSTRAP completes in either lifecycle state and mode: S becomes 1, no other SR bit changes, the block is Ready, nothing else
changes, and A7 then names SSP (R175). -/
def Obligations.BootstrapEntersReadyInSupervisorMode : Prop :=
  ∀ s : State, s.halted = false →
    ∃ t sr', exec .bootstrap s = .next t ∧
      t = { s with regs := { s.regs with sr := sr' }, life := .ready, response := some (.ok 0) } ∧
      (∀ j, j < 16 → sr'.getLsbD j = if j = 13 then true else s.regs.sr.getLsbD j) ∧
      exec (.getReg 19) t = .next (t.respond (.ok s.regs.ssp))

/-- The power-on state (R43): registers and memory as REG_INIT and MEM_INIT give them, Uninitialized, not halted, no record; and
after BOOTSTRAP the registers and memory are unchanged but for S, the block is Ready, and the rest is unchanged. The region table
is the constant of R40 in every state. -/
def Obligations.PowerOnStateIsAsTabulated : Prop :=
  ∀ (p : Params) (r : Regs) (m : Memory),
    let s := State.powerOn p r m
    s.regs = r ∧ s.mem = m ∧ s.life = .uninitialized ∧ s.halted = false ∧ s.fault = none ∧
    regionTable = [⟨.rom, 0x000000, 0x400000⟩, ⟨.ram, 0xFF0000, 0x10000⟩] ∧
    ∃ t, exec .bootstrap s = .next t ∧ t.life = .ready ∧ t.halted = false ∧ t.fault = none ∧ t.mem = m ∧
      t.regs = { r with sr := r.sr ||| 0x2000 }

/-- Every power-on state with a MEM_INIT in canonical form meets the invariant. -/
def Obligations.PowerOnMeetsTheInvariant : Prop :=
  ∀ (p : Params) (r : Regs) (m : Memory), Memory.wf m → (State.powerOn p r m).Inv

/-- State.reset meets the invariant. Its register and memory values are the model's choice (logs 2 and 3). -/
def Obligations.ResetMeetsTheInvariant : Prop :=
  State.reset.Inv

/-! ### The whole machine -/

/-- Every step keeps the invariant: the canonical store, the latch with its record, and the recorded bus fault being one that was
due (R28, R58, R184). -/
def Obligations.StepKeepsTheInvariant : Prop :=
  ∀ s t : State, s.Inv → step s = .next t → t.Inv

/-- Ready is permanent, and only BOOTSTRAP enters it (R29, R177). -/
def Obligations.OnlyBootstrapChangesTheLifecycle : Prop :=
  ∀ s t : State, step s = .next t →
    (s.life = .ready → t.life = .ready) ∧
    (t.life ≠ s.life → s.Performs .bootstrap ∧ t.life = .ready)

/-- PC changes only by SET_REG with identifier PC, which stores all 32 bits as they are, and GET_REG with identifier PC reads it
(R27). -/
def Obligations.OnlySetRegChangesThePc : Prop :=
  (∀ s t : State, step s = .next t → t.regs.pc ≠ s.regs.pc → ∃ v, s.Performs (.setReg 0 v) ∧ t.regs.pc = v) ∧
  ∀ (s : State) (v : Word), s.halted = false →
    (∃ t, exec (.setReg 0 v) s = .next t ∧ t.regs.pc = v) ∧ exec (.getReg 0) s = .next (s.respond (.ok s.regs.pc))

/-- Supervisor mode is entered only by BOOTSTRAP, by SET_REG SR with bit 13 set, or by SET_SR_BIT S = 1 while the gate is inert;
user mode only by SET_SR_BIT S = 0 or SET_REG SR with bit 13 clear (R192); and SET_REG SR does neither where R38 closes the
port. -/
def Obligations.ModeChangesOnlyAsListed : Prop :=
  ∀ s t : State, step s = .next t →
    (s.regs.sr.getLsbD 13 = false → t.regs.sr.getLsbD 13 = true →
      s.Performs .bootstrap ∨
      (∃ v : Word, s.Performs (.setReg 1 v) ∧ v.getLsbD 13 = true ∧ ¬ (s.params.srPortGated = true ∧ s.Gate 5)) ∨
      (s.Performs (.setSrBit true 0x2000) ∧ (s.life = .uninitialized ∨ s.params.privGateEnabled = false))) ∧
    (s.regs.sr.getLsbD 13 = true → t.regs.sr.getLsbD 13 = false →
      s.Performs (.setSrBit false 0x2000) ∨ ∃ v : Word, s.Performs (.setReg 1 v) ∧ v.getLsbD 13 = false)

/-- Who writes each SR bit: SET_REG SR any of them; SET_SR_BIT the named bit its mask selects, when not gated; BOOTSTRAP S; MOVE
C, V, Z and N; nothing else, so that bits 5, 6, 7 and 11 change by SET_REG SR only (R35, R36, R37). -/
def Obligations.SrBitsChangeOnlyByTheirWriters : Prop :=
  ∀ (s t : State) (pos : Nat), pos < 16 → step s = .next t → t.regs.sr.getLsbD pos ≠ s.regs.sr.getLsbD pos →
    (∃ v, s.Performs (.setReg 1 v)) ∨
    (∃ b, pos ∈ namedPositions ∧ s.Performs (.setSrBit b (1#16 <<< pos)) ∧ ¬ s.Gate pos) ∨
    (pos = 13 ∧ s.Performs .bootstrap) ∨
    (pos ≤ 3 ∧ ∃ dreg dmode sreg smode c, s.Performs (.move dreg dmode sreg smode c))

/-- Memory changes only where a command stores: a byte that a step changes is one of the bytes of the MEM_WRITE or of the MOVE
with indirect destination that it performs (R58, R63). -/
def Obligations.MemoryChangesOnlyWhereACommandStores : Prop :=
  ∀ (s t : State) (x : Nat), step s = .next t → Memory.readByte t.mem x ≠ Memory.readByte s.mem x →
    ∃ i, s.Performs i ∧ s.StoresTo i x

/-- A read returns the last write (R66): a byte that no command of a run stores to reads, after the run, as before it. -/
def Obligations.BytesKeepTheLastWriteOverEveryRun : Prop :=
  ∀ (k : Nat) (s t : State) (x : Nat), Host.Core.run Sys2Proof.core k s = .next t →
    (∀ j u i, j < k → Host.Core.run Sys2Proof.core j s = .next u → u.Performs i → ¬ u.StoresTo i x) →
    Memory.readByte t.mem x = Memory.readByte s.mem x

/-- In user mode of a Ready block with every gate closed, no step but BOOTSTRAP changes an SR bit above EXTEND, so the block stays
in user mode (R31, R38, R191). -/
def Obligations.ConfinedUserModeKeepsTheUpperBits : Prop :=
  ∀ s t : State, s.Confined → ¬ s.Performs .bootstrap → step s = .next t →
    t.Confined ∧ ∀ j, 5 ≤ j → j < 16 → t.regs.sr.getLsbD j = s.regs.sr.getLsbD j

/-- In user mode of a Ready block with every gate closed, no step reveals an SR bit above EXTEND: two such states that differ in
those bits only give the same response, and states that again differ in those bits only (R31, R38). -/
def Obligations.ConfinedUserModeLearnsNoUpperBit : Prop :=
  ∀ s₁ s₂ t₁ t₂ : State, s₁.Confined → s₂.Confined → s₁.AgreeBelowGate s₂ → step s₁ = .next t₁ → step s₂ = .next t₂ →
    t₁.response = t₂.response ∧ t₁.AgreeBelowGate t₂

/-- No command is privileged (R124): the response's STATUS is the same in both modes, but for a MOVE through the pointer A7, which
is another pointer in the other mode (R26, R148). -/
def Obligations.NoCommandIsPrivileged : Prop :=
  ∀ (i : Instr) (s t t' : State) (r r' : Response),
    (∀ dreg dmode sreg smode c, i = .move dreg dmode sreg smode c →
      ¬ (smode = 2 ∧ sreg = 19) ∧ ¬ (dmode = 2 ∧ dreg = 19)) →
    exec i s = .next t → exec i (s.withSr (s.regs.sr ^^^ 0x2000)) = .next t' → t.response = some r → t'.response = some r' →
    r'.status = r.status

/-- Well-formedness decides the errors of the command's own fields: on a block that is not halted, a well-formed command never
raises an internal-invariant violation but INDIRECT_WIDTH, which R143's parameter decides, and an ill-formed one never
completes (R32, R89, R90, R91, R142, R157). Well-formedness is the model's own notion (log 9). -/
def Obligations.WellFormedCommandsRaiseNoFieldError : Prop :=
  ∀ (i : Instr) (s t : State) (r : Response), s.halted = false → exec i s = .next t → t.response = some r →
    (i.wellFormed = true → r.status = 2 → r.subcode = 6) ∧ (i.wellFormed = false → r.status ≠ 0)

/-! ### Frames -/

/-- The reading commands and INIT_REGIONS change no register, SR bit, memory byte, lifecycle state or parameter, and the latch
only by an error (R57, R63, R120, R122, R130, R132). -/
def Obligations.FrameOfTheReadingCommands : Prop :=
  ∀ (i : Instr) (s t : State),
    (i = .initRegions ∨ (∃ c, i = .getReg c) ∨ (∃ m, i = .getSrBit m) ∨ ∃ w a, i = .memRead w a) →
    exec i s = .next t →
    t.regs = s.regs ∧ t.life = s.life ∧ t.params = s.params ∧ t.inbox = s.inbox ∧
    (∀ x, Memory.readByte t.mem x = Memory.readByte s.mem x) ∧
    (∀ d, t.response = some (.ok d) → t.halted = s.halted ∧ t.fault = s.fault)

/-- SET_REG, SET_SR_BIT and BOOTSTRAP change no memory byte and no cell of the register file but their own: the cell of the
identifier (SSP or USP for A7), SR, and SR; only BOOTSTRAP changes the lifecycle; and the latch changes only by an error (R25, R34,
R175). -/
def Obligations.FrameOfTheRegisterWritingCommands : Prop :=
  ∀ (i : Instr) (s t : State) (own : RegCell),
    ((∃ c v r, i = .setReg c v ∧ RegId.ofCode c = some r ∧ own = registerCell r (s.regs.sr.getLsbD 13)) ∨
     (∃ b m, i = .setSrBit b m ∧ own = .sr) ∨ (i = .bootstrap ∧ own = .sr)) →
    exec i s = .next t →
    (∀ c, c ≠ own → t.regs.get c = s.regs.get c) ∧ (i ≠ .bootstrap → t.life = s.life) ∧ t.params = s.params ∧
    t.inbox = s.inbox ∧ (∀ x, Memory.readByte t.mem x = Memory.readByte s.mem x) ∧
    (∀ d, t.response = some (.ok d) → t.halted = s.halted ∧ t.fault = s.fault)

/-- MEM_WRITE changes no register, SR bit or lifecycle state, and no byte outside the `WIDTH` bytes at ADDR (R58, R131). -/
def Obligations.FrameOfMemWrite : Prop :=
  ∀ (s t : State) (c : BitVec 3) (a v : Word), exec (.memWrite c a v) s = .next t →
    t.regs = s.regs ∧ t.life = s.life ∧ t.params = s.params ∧ t.inbox = s.inbox ∧
    (∀ x, x < a.toNat ∨ a.toNat + c.toNat ≤ x → Memory.readByte t.mem x = Memory.readByte s.mem x) ∧
    (∀ d, t.response = some (.ok d) → t.halted = s.halted ∧ t.fault = s.fault)

/-- MOVE leaves unchanged: X and SR bits 15–5; every cell but SR and, with a direct destination, the destination's (SSP or USP for
A7); with a direct destination every byte of memory, with an indirect one every byte outside the `WIDTH` bytes at its pointer; the
lifecycle; and the latch but for an error (R146, R147, R148, R160). -/
def Obligations.FrameOfMove : Prop :=
  ∀ (s t : State) (dreg : BitVec 5) (dmode : BitVec 2) (sreg : BitVec 5) (smode : BitVec 2) (c : BitVec 3),
    exec (.move dreg dmode sreg smode c) s = .next t →
    (∀ j, 4 ≤ j → j < 16 → t.regs.sr.getLsbD j = s.regs.sr.getLsbD j) ∧
    (∀ rd cell, RegId.ofCode dreg = some rd → cell ≠ .sr →
      dmode = 2 ∨ cell ≠ registerCell rd (s.regs.sr.getLsbD 13) → t.regs.get cell = s.regs.get cell) ∧
    (∀ x, (dmode ≠ 2 ∨ ∀ rd, RegId.ofCode dreg = some rd →
        x < (s.readReg rd).toNat ∨ (s.readReg rd).toNat + c.toNat ≤ x) →
      Memory.readByte t.mem x = Memory.readByte s.mem x) ∧
    t.life = s.life ∧ t.params = s.params ∧ t.inbox = s.inbox ∧
    (∀ d, t.response = some (.ok d) → t.halted = s.halted ∧ t.fault = s.fault)
end

