-- ==== Sys2Proof/Laws/Bits.lean ====
section
/-! SUPPORT. Bits after the single-bit update and truncation. -/

namespace Sys2Proof.Machine

/-- A bit of the single-bit update. -/
theorem getLsbD_setbit (word : Word) (pos : Nat) (b : Bool) (j : Nat) (hp : pos < 32) (hj : j < 32) :
    (setbit word pos b).getLsbD j = if j = pos then b else word.getLsbD j := by
  unfold setbit
  by_cases h : j = pos
  · subst h; simp [hj]
  · by_cases hlt : j < pos
    · simp [hj, h, hlt]
    · have h0 : j - pos ≠ 0 := by omega
      simp [hj, h, hlt, h0, BitVec.getLsbD_ofBool]

/-- A bit of SR after `srSet`: the written one, or as it was. -/
theorem getLsbD_srSet (sr : BitVec 16) (pos : Nat) (b : Bool) (j : Nat) (hp : pos < 32) (hj : j < 16) :
    (srSet sr pos b).getLsbD j = if j = pos then b else sr.getLsbD j := by
  unfold srSet
  rw [BitVec.getLsbD_setWidth, getLsbD_setbit _ _ _ _ hp (by omega)]
  have : j < 32 := by omega
  simp [hj, this]

/-- The number of a truncated value (R10). -/
theorem toNat_truncTo (w : Width) (v : Word) : (truncTo w v).toNat = v.toNat % 2 ^ (8 * w.bytes) := by
  unfold truncTo widthMask
  cases w
  · rw [BitVec.toNat_and]; simp only [Width.bytes]; exact Nat.and_two_pow_sub_one_eq_mod v.toNat 8
  · rw [BitVec.toNat_and]; simp only [Width.bytes]; exact Nat.and_two_pow_sub_one_eq_mod v.toNat 16
  · rw [BitVec.toNat_and]; simp only [Width.bytes]; exact Nat.and_two_pow_sub_one_eq_mod v.toNat 32

/-- A bit of a truncated value (R10). -/
theorem getLsbD_truncTo (w : Width) (v : Word) (j : Nat) :
    (truncTo w v).getLsbD j = (decide (j < 8 * w.bytes) && v.getLsbD j) := by
  rw [← BitVec.testBit_toNat, toNat_truncTo, Nat.testBit_mod_two_pow, BitVec.testBit_toNat]

end Sys2Proof.Machine
end

