-- ==== Sys2Proof/Laws/Memory.lean ====
section
/-! SUPPORT. The byte store: reading after writing, and the canonical form kept by every write. -/

namespace Sys2Proof.Machine

/-- An address above every listed one reads as an unlisted byte. -/
theorem readByte_of_forall_lt (m : Memory) (a : Nat) (h : ∀ c ∈ m, a < c.1) : m.readByte a = unlistedByte := by
  induction m with
  | nil => rfl
  | cons c rest ih =>
    obtain ⟨k, b⟩ := c
    have hk : a < k := h (k, b) (by simp)
    have hne : k ≠ a := by omega
    simp only [Memory.readByte, hne, if_false]
    exact ih fun c hc => h c (by simp [hc])

/-- A cell put in front of a store whose addresses are above it. -/
theorem readByte_cellFor_append (a : Nat) (b : Byte) (m : Memory) (h : ∀ c ∈ m, a < c.1) :
    Memory.readByte (cellFor a b ++ m) a = b := by
  unfold cellFor
  split
  · next hb => subst hb; simpa using readByte_of_forall_lt m a h
  · simp [Memory.readByte]

/-- A cell in front changes nothing at another address. -/
theorem readByte_cellFor_append_other (a x : Nat) (b : Byte) (m : Memory) (h : x ≠ a) :
    Memory.readByte (cellFor a b ++ m) x = m.readByte x := by
  unfold cellFor
  split
  · simp
  · simp [Memory.readByte, Ne.symm h]

/-- A write leaves every other address alone, whatever the form of the store. -/
theorem readByte_writeByte_other (m : Memory) (a x : Nat) (b : Byte) (h : x ≠ a) :
    (m.writeByte a b).readByte x = m.readByte x := by
  induction m with
  | nil => simpa [Memory.writeByte] using readByte_cellFor_append_other a x b [] h
  | cons c rest ih =>
    obtain ⟨k, c⟩ := c
    unfold Memory.writeByte
    split
    · simp [Memory.readByte, ih]
    · split
      · next hk => subst hk; simp [readByte_cellFor_append_other _ _ _ _ h, Memory.readByte, Ne.symm h]
      · rw [readByte_cellFor_append_other _ _ _ _ h]

/-- The addresses listed after a write. -/
theorem mem_writeByte (m : Memory) (a : Nat) (b : Byte) (c : Host.Cell) (h : c ∈ m.writeByte a b) :
    c ∈ m ∨ (c = (a, b) ∧ b ≠ unlistedByte) := by
  have hcell : ∀ c : Host.Cell, c ∈ cellFor a b → c = (a, b) ∧ b ≠ unlistedByte := by
    intro c hc
    unfold cellFor at hc
    split at hc
    · simp at hc
    · exact ⟨by simpa using hc, by assumption⟩
  induction m with
  | nil => exact .inr (hcell c (by simpa [Memory.writeByte] using h))
  | cons d rest ih =>
    obtain ⟨k, d⟩ := d
    unfold Memory.writeByte at h
    split at h
    · rcases List.mem_cons.mp h with h | h
      · exact .inl (by simp [h])
      · rcases ih h with h | h
        · exact .inl (by simp [h])
        · exact .inr h
    · split at h
      · rcases List.mem_append.mp h with h | h
        · exact .inr (hcell c h)
        · exact .inl (by simp [h])
      · rcases List.mem_append.mp h with h | h
        · exact .inr (hcell c h)
        · exact .inl h

/-- A canonical store stays so under a write inside it. -/
theorem writeByte_wf (m : Memory) (a : Nat) (b : Byte) (h : m.wf) (ha : a < capacity) : (m.writeByte a b).wf := by
  refine ⟨?_, ?_⟩
  · have hp := h.1
    clear h
    induction m with
    | nil => simp only [Memory.writeByte, cellFor]; split <;> simp
    | cons c rest ih =>
      obtain ⟨k, c⟩ := c
      obtain ⟨hk, hr⟩ := List.pairwise_cons.mp hp
      unfold Memory.writeByte
      split
      · refine List.pairwise_cons.mpr ⟨fun d hd => ?_, ih hr⟩
        rcases mem_writeByte rest a b d hd with hd | ⟨hd, -⟩
        · exact hk d hd
        · subst hd; assumption
      · split
        · next hka =>
          subst hka
          unfold cellFor
          split
          · simpa using hr
          · exact List.pairwise_cons.mpr ⟨fun d hd => hk d hd, hr⟩
        · next h1 h2 =>
          have hlt : a < k := by omega
          unfold cellFor
          split
          · simpa using hp
          · refine List.pairwise_cons.mpr ⟨fun d hd => ?_, hp⟩
            rcases List.mem_cons.mp hd with hd | hd
            · subst hd; exact hlt
            · exact Nat.lt_trans hlt (hk d hd)
  · intro c hc
    rcases mem_writeByte m a b c hc with hc | ⟨rfl, hb⟩
    · exact h.2 c hc
    · exact ⟨ha, hb⟩

/-- A canonical store reads back the byte written. -/
theorem readByte_writeByte_same (m : Memory) (a : Nat) (b : Byte) (h : m.wf) : (m.writeByte a b).readByte a = b := by
  have hp := h.1
  clear h
  induction m with
  | nil => simpa [Memory.writeByte] using readByte_cellFor_append a b [] (by simp)
  | cons c rest ih =>
    obtain ⟨k, c⟩ := c
    obtain ⟨hk, hr⟩ := List.pairwise_cons.mp hp
    unfold Memory.writeByte
    split
    · next hka =>
      have hne : k ≠ a := by omega
      simp [Memory.readByte, hne, ih hr]
    · split
      · next hka => subst hka; exact readByte_cellFor_append k b rest fun d hd => hk d hd
      · next h1 h2 =>
        have hlt : a < k := by omega
        refine readByte_cellFor_append a b _ fun d hd => ?_
        rcases List.mem_cons.mp hd with hd | hd
        · subst hd; exact hlt
        · exact Nat.lt_trans hlt (hk d hd)

/-- A write of several bytes leaves every other address alone. -/
theorem readByte_writeBytes_other (bytes : List Byte) (m : Memory) (a x : Nat) (h : x < a ∨ a + bytes.length ≤ x) :
    (m.writeBytes a bytes).readByte x = m.readByte x := by
  induction bytes generalizing m a with
  | nil => rfl
  | cons b rest ih =>
    simp only [List.length_cons] at h
    unfold Memory.writeBytes
    rw [ih _ _ (by omega), readByte_writeByte_other _ _ _ _ (by omega)]

/-- A canonical store stays so under a write of several bytes inside it. -/
theorem writeBytes_wf (bytes : List Byte) (m : Memory) (a : Nat) (h : m.wf) (ha : a + bytes.length ≤ capacity) :
    (m.writeBytes a bytes).wf := by
  induction bytes generalizing m a with
  | nil => exact h
  | cons b rest ih =>
    simp only [List.length_cons] at ha
    exact ih _ _ (writeByte_wf m a b h (by omega)) (by omega)

/-- A canonical store reads back each byte written. -/
theorem readByte_writeBytes_same (bytes : List Byte) (m : Memory) (a i : Nat) (h : m.wf)
    (ha : a + bytes.length ≤ capacity) (hi : i < bytes.length) :
    (m.writeBytes a bytes).readByte (a + i) = bytes[i] := by
  induction bytes generalizing m a i with
  | nil => simp at hi
  | cons b rest ih =>
    simp only [List.length_cons] at ha hi
    unfold Memory.writeBytes
    have hw := writeByte_wf m a b h (by omega)
    cases i with
    | zero => rw [readByte_writeBytes_other _ _ _ _ (by omega)]; simpa using readByte_writeByte_same m a b h
    | succ i =>
      have := ih (m.writeByte a b) (a + 1) i hw (by omega) (by omega)
      rw [show a + (i + 1) = a + 1 + i by omega, this]; rfl

@[simp] theorem length_bigEndianBytes (w : Width) (v : Word) : (bigEndianBytes w v).length = w.bytes := by
  simp [bigEndianBytes]

theorem getElem_bigEndianBytes (w : Width) (v : Word) (i : Nat) (h : i < (bigEndianBytes w v).length) :
    (bigEndianBytes w v)[i] = v.extractLsb' (8 * (w.bytes - 1 - i)) 8 := by
  simp [bigEndianBytes]

/-- An access is in bounds (R54). -/
theorem inBounds_iff (a : Word) (w : Width) : inBounds a w = true ↔ a.toNat + w.bytes ≤ capacity := by
  simp [inBounds]

/-- A failed check is the bus fault of that access (R60). -/
theorem checkAccess_cases (p : Params) (a : Word) (w : Width) (dir : Dir) :
    (checkAccess p a w dir = .ok () ∧ a.toNat + w.bytes ≤ capacity) ∨ checkAccess p a w dir = .error (.busFault a w dir) := by
  unfold checkAccess
  cases hb : inBounds a w
  · exact .inr rfl
  · have := (inBounds_iff a w).mp hb
    simp only [Bool.not_true, Bool.false_eq_true, if_false]
    split
    · exact .inr rfl
    · split
      · exact .inr rfl
      · exact .inl ⟨rfl, this⟩

/-- The sized read: the bytes, or the bus fault of the access (R57). -/
theorem memRead_cases (p : Params) (m : Memory) (a : Word) (w : Width) :
    (checkAccess p a w .read = .ok () ∧ memRead p m a w = .ok (m.readSized a.toNat w)) ∨
    (checkAccess p a w .read = .error (.busFault a w .read) ∧ memRead p m a w = .error (.busFault a w .read)) := by
  unfold memRead
  rcases checkAccess_cases p a w .read with ⟨h, -⟩ | h
  · exact .inl ⟨h, by rw [h]; rfl⟩
  · exact .inr ⟨h, by rw [h]; rfl⟩

/-- The sized write: the bytes stored inside the store, or the bus fault of the access (R58). -/
theorem memWrite_cases (p : Params) (m : Memory) (a : Word) (w : Width) (v : Word) :
    (checkAccess p a w .write = .ok () ∧ a.toNat + w.bytes ≤ capacity ∧
      memWrite p m a w v = .ok (m.writeBytes a.toNat (bigEndianBytes w v))) ∨
    (checkAccess p a w .write = .error (.busFault a w .write) ∧ memWrite p m a w v = .error (.busFault a w .write)) := by
  unfold memWrite
  rcases checkAccess_cases p a w .write with ⟨h, hb⟩ | h
  · exact .inl ⟨h, hb, by rw [h]; rfl⟩
  · exact .inr ⟨h, by rw [h]; rfl⟩

/-- The sized write keeps the canonical form. -/
theorem memWrite_wf (p : Params) (m m' : Memory) (a : Word) (w : Width) (v : Word) (h : m.wf)
    (hw : memWrite p m a w v = .ok m') : m'.wf := by
  rcases memWrite_cases p m a w v with ⟨-, hb, h'⟩ | ⟨-, h'⟩
  · rw [h'] at hw
    cases hw
    exact writeBytes_wf _ _ _ h (by simpa using hb)
  · rw [h'] at hw; cases hw

end Sys2Proof.Machine
end

