-- ==== Sys2Proof/Laws/Bytes.lean ====
section
/-! SUPPORT. Values put together from bytes. -/

namespace Sys2Proof.Machine

/-- The number of a concatenation. -/
theorem toNat_append_mul {m n : Nat} (x : BitVec m) (y : BitVec n) : (x ++ y).toNat = x.toNat * 2 ^ n + y.toNat := by
  rw [BitVec.toNat_append, ← Nat.shiftLeft_add_eq_or_of_lt y.isLt, Nat.shiftLeft_eq]

/-- Reading the big-endian bytes of a value gives the value truncated to the width (R57, R58, R61). -/
theorem readSized_of_bytes (m : Memory) (a : Nat) (w : Width) (v : Word)
    (h : ∀ i, i < w.bytes → m.readByte (a + i) = v.extractLsb' (8 * (w.bytes - 1 - i)) 8) :
    m.readSized a w = truncTo w v := by
  apply BitVec.eq_of_toNat_eq
  rw [toNat_truncTo]
  have h0 := h 0
  have h1 := h 1
  have h2 := h 2
  have h3 := h 3
  simp only [Nat.add_zero] at h0
  cases w
  · simp only [Width.bytes] at h0
    rw [Memory.readSized, h0 (by decide)]
    simp [Width.bytes]
    omega
  · simp only [Width.bytes] at h0 h1
    rw [Memory.readSized, h0 (by decide), h1 (by decide), BitVec.toNat_setWidth, toNat_append_mul]
    simp [Width.bytes, Nat.shiftRight_eq_div_pow]
    omega
  · simp only [Width.bytes] at h0 h1 h2 h3
    rw [Memory.readSized, h0 (by decide), h1 (by decide), h2 (by decide), h3 (by decide), toNat_append_mul,
      toNat_append_mul, toNat_append_mul]
    simp [Width.bytes, Nat.shiftRight_eq_div_pow]
    omega

end Sys2Proof.Machine
end

