-- ==== Sys2Proof/Laws/Decode.lean ====
section
/-! SUPPORT. The decoder's check of reserved bits, and the field codes against well-formedness. -/

namespace Sys2Proof

theorem whenClear_ok {n : Nat} (reserved : BitVec n) (i j : Instr) (h : whenClear reserved i = .ok j) :
    reserved = 0 ∧ i = j := by
  unfold whenClear at h
  split at h
  · cases h; exact ⟨by assumption, rfl⟩
  · cases h

/-- The register codes that name a register are those the table lists (R89). -/
theorem registerNamed_iff (c : BitVec 5) : registerNamed c = (RegId.ofCode c).isSome := by
  revert c; decide

/-- The width codes that name a width are those the table lists (R90). -/
theorem widthNamed_iff (c : BitVec 3) : widthNamed c = (Width.ofCode c).isSome := by
  revert c; decide

end Sys2Proof
end

