-- ==== Sys2Proof/Laws/State.lean ====
section
/-! SUPPORT. What each named update of State does to each field. -/

namespace Sys2Proof.Machine

variable (s : State)

@[simp] theorem withRegs_params (r : Regs) : (s.withRegs r).params = s.params := rfl
@[simp] theorem withRegs_regs (r : Regs) : (s.withRegs r).regs = r := rfl
@[simp] theorem withRegs_life (r : Regs) : (s.withRegs r).life = s.life := rfl
@[simp] theorem withRegs_halted (r : Regs) : (s.withRegs r).halted = s.halted := rfl
@[simp] theorem withRegs_fault (r : Regs) : (s.withRegs r).fault = s.fault := rfl
@[simp] theorem withRegs_mem (r : Regs) : (s.withRegs r).mem = s.mem := rfl
@[simp] theorem withRegs_inbox (r : Regs) : (s.withRegs r).inbox = s.inbox := rfl
@[simp] theorem withRegs_response (r : Regs) : (s.withRegs r).response = s.response := rfl

@[simp] theorem withSr_params (sr : BitVec 16) : (s.withSr sr).params = s.params := rfl
@[simp] theorem withSr_regs (sr : BitVec 16) : (s.withSr sr).regs = { s.regs with sr := sr } := rfl
@[simp] theorem withSr_life (sr : BitVec 16) : (s.withSr sr).life = s.life := rfl
@[simp] theorem withSr_halted (sr : BitVec 16) : (s.withSr sr).halted = s.halted := rfl
@[simp] theorem withSr_fault (sr : BitVec 16) : (s.withSr sr).fault = s.fault := rfl
@[simp] theorem withSr_mem (sr : BitVec 16) : (s.withSr sr).mem = s.mem := rfl
@[simp] theorem withSr_inbox (sr : BitVec 16) : (s.withSr sr).inbox = s.inbox := rfl
@[simp] theorem withSr_response (sr : BitVec 16) : (s.withSr sr).response = s.response := rfl

@[simp] theorem withMem_params (m : Memory) : (s.withMem m).params = s.params := rfl
@[simp] theorem withMem_regs (m : Memory) : (s.withMem m).regs = s.regs := rfl
@[simp] theorem withMem_life (m : Memory) : (s.withMem m).life = s.life := rfl
@[simp] theorem withMem_halted (m : Memory) : (s.withMem m).halted = s.halted := rfl
@[simp] theorem withMem_fault (m : Memory) : (s.withMem m).fault = s.fault := rfl
@[simp] theorem withMem_mem (m : Memory) : (s.withMem m).mem = m := rfl
@[simp] theorem withMem_inbox (m : Memory) : (s.withMem m).inbox = s.inbox := rfl
@[simp] theorem withMem_response (m : Memory) : (s.withMem m).response = s.response := rfl

@[simp] theorem withLife_params (l : Life) : (s.withLife l).params = s.params := rfl
@[simp] theorem withLife_regs (l : Life) : (s.withLife l).regs = s.regs := rfl
@[simp] theorem withLife_life (l : Life) : (s.withLife l).life = l := rfl
@[simp] theorem withLife_halted (l : Life) : (s.withLife l).halted = s.halted := rfl
@[simp] theorem withLife_fault (l : Life) : (s.withLife l).fault = s.fault := rfl
@[simp] theorem withLife_mem (l : Life) : (s.withLife l).mem = s.mem := rfl
@[simp] theorem withLife_inbox (l : Life) : (s.withLife l).inbox = s.inbox := rfl
@[simp] theorem withLife_response (l : Life) : (s.withLife l).response = s.response := rfl

@[simp] theorem latch_params (e : Error) : (s.latch e).params = s.params := rfl
@[simp] theorem latch_regs (e : Error) : (s.latch e).regs = s.regs := rfl
@[simp] theorem latch_life (e : Error) : (s.latch e).life = s.life := rfl
@[simp] theorem latch_halted (e : Error) : (s.latch e).halted = true := rfl
@[simp] theorem latch_fault (e : Error) : (s.latch e).fault = some e := rfl
@[simp] theorem latch_mem (e : Error) : (s.latch e).mem = s.mem := rfl
@[simp] theorem latch_inbox (e : Error) : (s.latch e).inbox = s.inbox := rfl
@[simp] theorem latch_response (e : Error) : (s.latch e).response = s.response := rfl

@[simp] theorem respond_params (r : Response) : (s.respond r).params = s.params := rfl
@[simp] theorem respond_regs (r : Response) : (s.respond r).regs = s.regs := rfl
@[simp] theorem respond_life (r : Response) : (s.respond r).life = s.life := rfl
@[simp] theorem respond_halted (r : Response) : (s.respond r).halted = s.halted := rfl
@[simp] theorem respond_fault (r : Response) : (s.respond r).fault = s.fault := rfl
@[simp] theorem respond_mem (r : Response) : (s.respond r).mem = s.mem := rfl
@[simp] theorem respond_inbox (r : Response) : (s.respond r).inbox = s.inbox := rfl
@[simp] theorem respond_response (r : Response) : (s.respond r).response = some r := rfl

@[simp] theorem offer_inbox (p : Packet) : (s.offer p).inbox = p :: s.inbox := rfl
@[simp] theorem offer_regs (p : Packet) : (s.offer p).regs = s.regs := rfl
@[simp] theorem offer_halted (p : Packet) : (s.offer p).halted = s.halted := rfl
@[simp] theorem offer_mem (p : Packet) : (s.offer p).mem = s.mem := rfl

/-- The fields the spec says an error leaves alone (R183), for either kind of error. -/
theorem raise_keeps (e : Error) :
    (s.raise e).params = s.params ∧ (s.raise e).regs = s.regs ∧ (s.raise e).life = s.life ∧ (s.raise e).mem = s.mem ∧
      (s.raise e).inbox = s.inbox := by
  unfold State.raise
  split <;> simp

@[simp] theorem raise_params (e : Error) : (s.raise e).params = s.params := (raise_keeps s e).1
@[simp] theorem raise_regs (e : Error) : (s.raise e).regs = s.regs := (raise_keeps s e).2.1
@[simp] theorem raise_life (e : Error) : (s.raise e).life = s.life := (raise_keeps s e).2.2.1
@[simp] theorem raise_mem (e : Error) : (s.raise e).mem = s.mem := (raise_keeps s e).2.2.2.1
@[simp] theorem raise_inbox (e : Error) : (s.raise e).inbox = s.inbox := (raise_keeps s e).2.2.2.2

@[simp] theorem raise_response (e : Error) : (s.raise e).response = some (.ofError e) := by
  unfold State.raise
  split <;> rfl

end Sys2Proof.Machine
end

