-- ==== Sys2Proof/Laws/Regs.lean ====
section
/-! SUPPORT. The register file: what a cell holds after a store, and what the ports do outside SR. -/

namespace Sys2Proof.Machine

/-- A cell other than SR holds what was stored in it. -/
theorem get_set_same (c : RegCell) (v : Word) (r : Regs) (h : c ≠ .sr) : (r.set c v).get c = v := by
  cases c <;> first | rfl | exact absurd rfl h

/-- A store into one cell leaves every other alone (R25). -/
theorem get_set_other (c c' : RegCell) (v : Word) (r : Regs) (h : c' ≠ c) : (r.set c v).get c' = r.get c' := by
  cases c <;> cases c' <;> first | rfl | exact absurd rfl h

/-- A register file is determined by its nineteen cells (R20). -/
theorem regs_ext (r r' : Regs) (h : ∀ c, r.get c = r'.get c) : r = r' := by
  have hsr : r.sr = r'.sr := by
    have := h .sr
    simp only [Regs.get] at this
    have := congrArg (BitVec.setWidth 16) this
    simpa using this
  have h0 := h .pc; have h2 := h .usp; have h3 := h .ssp
  have h4 := h .d0; have h5 := h .d1; have h6 := h .d2; have h7 := h .d3
  have h8 := h .d4; have h9 := h .d5; have h10 := h .d6; have h11 := h .d7
  have h12 := h .a0; have h13 := h .a1; have h14 := h .a2; have h15 := h .a3
  have h16 := h .a4; have h17 := h .a5; have h18 := h .a6
  cases r; cases r'
  simp_all [Regs.get]

/-- Only the identifier SR names the cell SR. -/
theorem registerCell_eq_sr (r : RegId) (b : Bool) : registerCell r b = .sr ↔ r = .sr := by
  cases r <;> cases b <;> simp [registerCell]

/-- The read port outside SR is the cell's content (R24). -/
theorem readReg_of_ne_sr (s : State) (r : RegId) (h : r ≠ .sr) :
    s.readReg r = s.regs.get (registerCell r s.supervisor) := by
  unfold State.readReg
  split
  · next hc => exact absurd ((registerCell_eq_sr r _).mp hc) h
  · rfl

/-- The write port outside SR stores into the cell (R25). -/
theorem writeReg_of_ne_sr (s : State) (r : RegId) (v : Word) (h : r ≠ .sr) :
    s.writeReg r v = s.withRegs (s.regs.set (registerCell r s.supervisor) v) := by
  unfold State.writeReg
  split
  · next hc => exact absurd ((registerCell_eq_sr r _).mp hc) h
  · rfl

/-- The write port changes the register file and nothing else. -/
theorem writeReg_eq_withRegs (s : State) (r : RegId) (v : Word) : s.writeReg r v = s.withRegs (s.writeReg r v).regs := by
  unfold State.writeReg
  split
  · split <;> rfl
  · rfl

@[simp] theorem writeReg_params (s : State) (r : RegId) (v : Word) : (s.writeReg r v).params = s.params := by
  rw [writeReg_eq_withRegs]; rfl
@[simp] theorem writeReg_life (s : State) (r : RegId) (v : Word) : (s.writeReg r v).life = s.life := by
  rw [writeReg_eq_withRegs]; rfl
@[simp] theorem writeReg_halted (s : State) (r : RegId) (v : Word) : (s.writeReg r v).halted = s.halted := by
  rw [writeReg_eq_withRegs]; rfl
@[simp] theorem writeReg_fault (s : State) (r : RegId) (v : Word) : (s.writeReg r v).fault = s.fault := by
  rw [writeReg_eq_withRegs]; rfl
@[simp] theorem writeReg_mem (s : State) (r : RegId) (v : Word) : (s.writeReg r v).mem = s.mem := by
  rw [writeReg_eq_withRegs]; rfl
@[simp] theorem writeReg_inbox (s : State) (r : RegId) (v : Word) : (s.writeReg r v).inbox = s.inbox := by
  rw [writeReg_eq_withRegs]; rfl

/-- A store into a cell other than SR leaves SR alone. -/
theorem set_sr (c : RegCell) (v : Word) (r : Regs) (h : c ≠ .sr) : (r.set c v).sr = r.sr := by
  cases c <;> first | rfl | exact absurd rfl h

/-- A store into a cell other than PC leaves PC alone (R27). -/
theorem set_pc (c : RegCell) (v : Word) (r : Regs) (h : c ≠ .pc) : (r.set c v).pc = r.pc := by
  cases c <;> first | rfl | exact absurd rfl h

/-- The write port changes SR only by the identifier SR. -/
theorem writeReg_sr_of_ne (s : State) (r : RegId) (v : Word) (h : r ≠ .sr) : (s.writeReg r v).regs.sr = s.regs.sr := by
  rw [writeReg_of_ne_sr _ _ _ h, withRegs_regs, set_sr _ _ _ fun hc => h ((registerCell_eq_sr _ _).mp hc)]

/-- The write port changes PC only by the identifier PC (R27). -/
theorem writeReg_pc_of_ne (s : State) (r : RegId) (v : Word) (h : r ≠ .pc) : (s.writeReg r v).regs.pc = s.regs.pc := by
  unfold State.writeReg
  split
  · split <;> rfl
  · rw [withRegs_regs, set_pc]
    intro hc
    revert hc
    cases r <;> cases s.supervisor <;> simp [registerCell] at h ⊢

end Sys2Proof.Machine
end

