-- ==== Sys2Proof/Laws/Ops.lean ====
section
/-! SUPPORT. The shared operations: performing a command, taking an error, field codes and status-bit masks. -/

namespace Sys2Proof.Machine

@[simp] theorem ok_bind {α β : Type} (a : α) (f : α → Except Error β) : (Except.ok a >>= f) = f a := rfl

@[simp] theorem error_bind {α β : Type} (e : Error) (f : α → Except Error β) : (Except.error e >>= f) = .error e := rfl

@[simp] theorem pure_eq_ok {α : Type} (a : α) : (pure a : Except Error α) = .ok a := rfl

/-- A halted block performs nothing (R185). -/
theorem perform_of_halted (c : State → Result) (s : State) (h : s.halted = true) :
    perform c s = .next (s.respond .halted) := by
  simp [perform, h]

/-- A command that completes (R81). -/
theorem perform_ok (c : State → Result) (s t : State) (d : Word) (h : s.halted = false) (hc : c s = .ok (t, d)) :
    perform c s = .next (t.respond (.ok d)) := by
  simp [perform, h, hc, State.finish]

/-- A command that ends in an error (R183). -/
theorem perform_error (c : State → Result) (s : State) (e : Error) (h : s.halted = false) (hc : c s = .error e) :
    perform c s = .next (s.raise e) := by
  simp [perform, h, hc, State.finish]

/-- Everything performing a command can come to. -/
theorem perform_cases (c : State → Result) (s t : State) (h : perform c s = .next t) :
    (s.halted = true ∧ t = s.respond .halted) ∨
    (s.halted = false ∧ ∃ e, c s = .error e ∧ t = s.raise e) ∨
    (s.halted = false ∧ ∃ u d, c s = .ok (u, d) ∧ t = u.respond (.ok d)) := by
  unfold perform at h
  cases hh : s.halted
  · cases hc : c s with
    | error e => simp [hh, hc, State.finish] at h; exact .inr (.inl ⟨rfl, e, rfl, h.symm⟩)
    | ok p => obtain ⟨u, d⟩ := p; simp [hh, hc, State.finish] at h; exact .inr (.inr ⟨rfl, u, d, rfl, h.symm⟩)
  · simp [hh] at h; exact .inl ⟨rfl, h.symm⟩

/-- Performing a command answers a next state. -/
theorem perform_next (c : State → Result) (s : State) : ∃ t, perform c s = .next t := ⟨_, rfl⟩

/-- An error that is latched (R184). -/
theorem raise_of_latched (s : State) (e : Error) (h : e.isBusFault = false ∨ s.params.busFaultRecoverable = false) :
    s.raise e = (s.latch e).respond (.ofError e) := by
  unfold State.raise
  rcases h with h | h <;> simp [h]

/-- A bus fault that is not latched (R184). -/
theorem raise_of_recoverable (s : State) (e : Error) (h : e.isBusFault = true) (hp : s.params.busFaultRecoverable = true) :
    s.raise e = s.respond (.ofError e) := by
  simp [State.raise, h, hp]

/-- The two ends of taking an error (R184). -/
theorem raise_cases (s : State) (e : Error) :
    (s.raise e = (s.latch e).respond (.ofError e) ∧ (e.isBusFault = false ∨ s.params.busFaultRecoverable = false)) ∨
    (s.raise e = s.respond (.ofError e) ∧ e.isBusFault = true ∧ s.params.busFaultRecoverable = true) := by
  cases h : e.isBusFault
  · exact .inl ⟨raise_of_latched s e (.inl h), .inl rfl⟩
  · cases hp : s.params.busFaultRecoverable
    · exact .inl ⟨raise_of_latched s e (.inr hp), .inr rfl⟩
    · exact .inr ⟨raise_of_recoverable s e h hp, rfl, rfl⟩

/-- No error has STATUS = OK (R95). -/
theorem ofError_status_ne_zero (e : Error) : (Response.ofError e).status ≠ 0 := by
  cases e <;> simp [Response.ofError]

theorem checkRegister_of_some (c : BitVec 5) (r : RegId) (h : RegId.ofCode c = some r) : checkRegister c = .ok r := by
  simp [checkRegister, h]

/-- Codes 0–19 name a register and the others none (R89). -/
theorem ofCode_isSome_iff (c : BitVec 5) : (RegId.ofCode c).isSome = true ↔ c.toNat < 20 := by
  revert c; decide

theorem checkRegister_of_lt (c : BitVec 5) (h : c.toNat < 20) : ∃ r, RegId.ofCode c = some r ∧ checkRegister c = .ok r := by
  obtain ⟨r, hr⟩ := Option.isSome_iff_exists.mp ((ofCode_isSome_iff c).mpr h)
  exact ⟨r, hr, checkRegister_of_some c r hr⟩

theorem checkRegister_of_ge (c : BitVec 5) (h : 20 ≤ c.toNat) : checkRegister c = .error (.invariant .invalidRegister) := by
  unfold checkRegister
  split
  · next r hr =>
    have := (ofCode_isSome_iff c).mp (by simp [hr])
    omega
  · rfl

theorem checkWidth_of_some (c : BitVec 3) (w : Width) (h : Width.ofCode c = some w) : checkWidth c = .ok w := by
  simp [checkWidth, h]

/-- A width code is the width in bytes (R90). -/
theorem widthOfCode_bytes (c : BitVec 3) (w : Width) (h : Width.ofCode c = some w) : w.bytes = c.toNat := by
  revert c; cases w <;> decide

/-- A sequence of checks that succeeds: each succeeds. -/
theorem bind_eq_ok {α β : Type} (x : Except Error α) (f : α → Except Error β) (b : β) (h : (x >>= f) = .ok b) :
    ∃ a, x = .ok a ∧ f a = .ok b := by
  cases x with
  | error e => cases h
  | ok a => exact ⟨a, rfl, h⟩

theorem checkWidth_ok (c : BitVec 3) (w : Width) (h : checkWidth c = .ok w) : Width.ofCode c = some w := by
  unfold checkWidth at h
  split at h
  · next w' hw => cases h; exact hw
  · cases h

theorem checkRegister_ok (c : BitVec 5) (r : RegId) (h : checkRegister c = .ok r) : RegId.ofCode c = some r := by
  unfold checkRegister at h
  split at h
  · next w' hw => cases h; exact hw
  · cases h

/-- A named mask selects its bit (R32). -/
theorem statusBitPos_of_named (pos : Nat) (h : pos ∈ [0, 1, 2, 3, 4, 8, 9, 10, 12, 13, 14, 15]) :
    statusBitPos (1#16 <<< pos) = .ok pos := by
  simp only [List.mem_cons, List.not_mem_nil, or_false] at h
  rcases h with h | h | h | h | h | h | h | h | h | h | h | h <;> subst h <;> decide

/-- The named masks are the single-bit masks of the named positions (R30, R32). -/
theorem namedMasks_eq : namedMasks = [0, 1, 2, 3, 4, 8, 9, 10, 12, 13, 14, 15].map fun pos => 1#16 <<< pos := by decide

/-- A mask that is accepted is the single-bit mask of its position (R32). -/
theorem statusBitPos_ok (mask : BitVec 16) (pos : Nat) (h : statusBitPos mask = .ok pos) :
    pos ∈ [0, 1, 2, 3, 4, 8, 9, 10, 12, 13, 14, 15] ∧ mask = 1#16 <<< pos := by
  by_cases hm : mask ∈ namedMasks
  · rw [namedMasks_eq, List.mem_map] at hm
    obtain ⟨p, hp, rfl⟩ := hm
    rw [statusBitPos_of_named p hp] at h
    injection h with h
    subst h
    exact ⟨hp, rfl⟩
  · simp [statusBitPos, hm] at h

/-- The gate in the terms of R31. -/
theorem gated_iff (s : State) (pos : Nat) :
    s.gated pos = true ↔
      s.params.privGateEnabled = true ∧ s.life = .ready ∧ s.regs.sr.getLsbD 13 = false ∧ 4 < pos := by
  unfold State.gated State.supervisor bitS bitX
  rw [Bool.and_eq_true, Bool.and_eq_true, Bool.and_eq_true, beq_iff_eq, Bool.not_eq_true', decide_eq_true_iff, and_assoc,
    and_assoc]

end Sys2Proof.Machine
end

