-- ==== Sys2Proof/Laws/Operands.lean ====
section
/-! SUPPORT. The operand checks, the sized store and the flag unit of MOVE. -/

namespace Sys2Proof.Machine

/-- The two ends of a sized store (R147): a register written with the merge, or bytes written to memory, or the bus fault. -/
theorem storeSized_cases (loc : Location) (v : Word) (w : Width) (s t : State) (r : Word)
    (h : storeSized loc v w s = .ok (t, r)) :
    (∃ rd old, loc = .reg rd old ∧ t = s.writeReg rd (merge old v w) ∧ r = merge old v w) ∨
    (∃ a, loc = .mem a ∧ a.toNat + w.bytes ≤ capacity ∧
      t = s.withMem (Memory.writeBytes s.mem a.toNat (bigEndianBytes w v)) ∧ r = truncTo w v) := by
  cases loc with
  | reg rd old => cases h; exact .inl ⟨rd, old, rfl, rfl, rfl⟩
  | mem a =>
    unfold storeSized at h
    rcases memWrite_cases s.params s.mem a w v with ⟨-, hb, hm⟩ | ⟨-, hm⟩
    · simp only [hm] at h; cases h; exact .inr ⟨a, rfl, hb, rfl, rfl⟩
    · simp only [hm] at h; cases h

theorem checkMode_ok (c : BitVec 2) (m : Mode) (h : checkMode c = .ok m) : Mode.ofCode c = some m := by
  unfold checkMode at h
  split at h
  · next w' hw => cases h; exact hw
  · cases h

/-- A checked operand: its codes name its register and mode, which suit each other (R140–R142). -/
theorem checkOperand_ok (p : Params) (role : Role) (reg : BitVec 5) (mode : BitVec 2) (w : Width) (op : Operand)
    (h : checkOperand p role reg mode w = .ok op) :
    RegId.ofCode reg = some op.reg ∧ Mode.ofCode mode = some op.mode ∧ kindSuits op.mode op.reg = true ∧
      (op.mode = .indirect → w ≠ .long → indirectWidthChecked p role = false) := by
  unfold checkOperand at h
  obtain ⟨m, hm, h⟩ := bind_eq_ok _ _ _ h
  obtain ⟨r, hr, h⟩ := bind_eq_ok _ _ _ h
  obtain ⟨⟨⟩, hk, h⟩ := bind_eq_ok _ _ _ h
  obtain ⟨⟨⟩, hi, h⟩ := bind_eq_ok _ _ _ h
  cases h
  refine ⟨checkRegister_ok _ _ hr, checkMode_ok _ _ hm, ?_, fun hmi hw => ?_⟩
  · unfold checkKind at hk
    split at hk
    · assumption
    · cases hk
  · unfold checkIndirectWidth at hi
    split at hi
    · cases hi
    · next hn =>
      simp only at hmi
      subst hmi
      simpa [hw] using hn

/-- The register-kind check in the terms of WellFormed.lean (R142). -/
theorem kindMatches_eq : ∀ (reg : BitVec 5) (mode : BitVec 2),
    ∀ m ∈ Mode.ofCode mode, ∀ r ∈ RegId.ofCode reg, kindMatches reg mode = kindSuits m r := by
  decide

/-- The mode codes (R91). -/
theorem modeOfCode_cases : ∀ mode : BitVec 2,
    (mode.toNat = 3 ∧ Mode.ofCode mode = none) ∨ (mode.toNat = 0 ∧ Mode.ofCode mode = some .dataDirect) ∨
    (mode.toNat = 1 ∧ Mode.ofCode mode = some .addressDirect) ∨ (mode.toNat = 2 ∧ Mode.ofCode mode = some .indirect) := by
  decide

/-- The checks of an operand, in their order, by the numbers of its codes (R140–R143). -/
theorem checkOperand_eq (p : Params) (role : Role) (reg : BitVec 5) (mode : BitVec 2) (w : Width) :
    checkOperand p role reg mode w =
      if mode.toNat = 3 then .error (.invariant .invalidMode)
      else if 20 ≤ reg.toNat then .error (.invariant .invalidRegister)
      else if kindMatches reg mode = false then .error (.invariant .registerModeMismatch)
      else if mode.toNat = 2 ∧ w ≠ .long ∧ indirectWidthChecked p role = true then .error (.invariant .indirectWidth)
      else .ok ⟨(RegId.ofCode reg).getD .pc, (Mode.ofCode mode).getD .indirect⟩ := by
  unfold checkOperand checkMode
  by_cases hr : 20 ≤ reg.toNat
  · rw [checkRegister_of_ge reg hr]
    rcases modeOfCode_cases mode with ⟨h, hm⟩ | ⟨h, hm⟩ | ⟨h, hm⟩ | ⟨h, hm⟩ <;> rw [hm] <;> simp [h, hr]
  · obtain ⟨r, hr1, hr2⟩ := checkRegister_of_lt reg (by omega)
    have hk := kindMatches_eq reg mode
    rw [hr2, hr1, if_neg hr]
    rcases modeOfCode_cases mode with ⟨h, hm⟩ | ⟨h, hm⟩ | ⟨h, hm⟩ | ⟨h, hm⟩ <;> rw [hm] at hk ⊢
    · rw [if_pos h]; rfl
    all_goals
      rw [hk _ rfl r hr1]
      simp only [h, ok_bind, checkKind, checkIndirectWidth]
      cases kindSuits _ r
      · simp
      · cases w <;> cases indirectWidthChecked p role <;> simp

/-- No operand of a MOVE is PC, SR, USP or SSP by that name (R142). -/
theorem kindSuits_ne_sr (m : Mode) (r : RegId) (h : kindSuits m r = true) : r ≠ .sr ∧ r ≠ .pc := by
  cases m <;> cases r <;> simp [kindSuits, isDataRegister, isAddressRegister] at h ⊢

/-- A bit of the merge: of the value below the width, of the old content above (R146). -/
theorem getLsbD_merge (old v : Word) (w : Width) (j : Nat) (hj : j < 32) :
    (merge old v w).getLsbD j = if j < 8 * w.bytes then v.getLsbD j else old.getLsbD j := by
  cases w
  · have hm : BitVec.getLsbD (0xFFFFFF00 : Word) j = decide (8 ≤ j) ∧ BitVec.getLsbD (0x000000FF : Word) j = decide (j < 8) := by
      revert j; decide
    simp only [merge, Width.bytes, BitVec.getLsbD_or, BitVec.getLsbD_and, hm.1, hm.2]
    by_cases h : j < 8
    · simp [h, Nat.not_le.mpr h]
    · simp [h, Nat.not_lt.mp h]
  · have hm : BitVec.getLsbD (0xFFFF0000 : Word) j = decide (16 ≤ j) ∧ BitVec.getLsbD (0x0000FFFF : Word) j = decide (j < 16) := by
      revert j; decide
    simp only [merge, Width.bytes, BitVec.getLsbD_or, BitVec.getLsbD_and, hm.1, hm.2]
    by_cases h : j < 16
    · simp [h, Nat.not_le.mpr h]
    · simp [h, Nat.not_lt.mp h]
  · simp [merge, Width.bytes, hj]

/-- A bit of SR after the flag unit (R160): C, V, Z and N as computed, every other bit as it was. -/
theorem getLsbD_moveFlags (p : Params) (r : Word) (w : Width) (sr : BitVec 16) (j : Nat) (hj : j < 16) :
    (moveFlags p r w sr).getLsbD j =
      if j = 0 then false else if j = 1 then false else if j = 2 then flagZ p r w else if j = 3 then flagN p r w
      else sr.getLsbD j := by
  unfold moveFlags
  rw [getLsbD_srSet _ _ _ _ (by decide) hj, getLsbD_srSet _ _ _ _ (by decide) hj, getLsbD_srSet _ _ _ _ (by decide) hj,
    getLsbD_srSet _ _ _ _ (by decide) hj]
  rfl

end Sys2Proof.Machine
end

