-- ==== Sys2Proof/Laws/Safety.lean ====
section
/-! SUPPORT. The machine's checks in the terms of Safety.lean: the access checks, the gate, the SR port and the flag unit. -/

namespace Sys2Proof.Machine

/-- The region of an address, by its bounds (R52). -/
theorem regionOf_eq (a : Nat) :
    regionOf a = if a < 0x400000 then some .rom else if 0xFF0000 ≤ a ∧ a < 0x1000000 then some .ram else none := by
  by_cases h1 : a < 0x400000
  · simp [regionOf, regionTable, h1]
  · by_cases h2 : 0xFF0000 ≤ a ∧ a < 0x1000000
    · simp [regionOf, regionTable, List.find?, h1, h2]
    · have h3 : (decide (0xFF0000 ≤ a) && decide (a < 0x1000000)) = false := by rw [← Bool.decide_and]; exact decide_eq_false h2
      simp [regionOf, regionTable, List.find?, h1, h2, h3]

theorem bytes_pos (w : Width) : 0 < w.bytes := by cases w <;> decide

theorem bytes_le (w : Width) : w.bytes ≤ 4 := by cases w <;> decide

/-- Containment in one region (R56), for an access inside the store. -/
theorem inOneRegion_iff (a : Word) (w : Width) (h : a.toNat + w.bytes ≤ 0x1000000) :
    inOneRegion a w = true ↔ a.toNat + w.bytes ≤ 0x400000 ∨ 0xFF0000 ≤ a.toNat := by
  have := bytes_pos w
  have := bytes_le w
  unfold inOneRegion
  rw [regionOf_eq, regionOf_eq]
  by_cases h1 : a.toNat < 0x400000
  · by_cases h2 : a.toNat + w.bytes - 1 < 0x400000
    · simp only [h1, h2, if_true]; simp; omega
    · have h3 : ¬ (0xFF0000 ≤ a.toNat + w.bytes - 1 ∧ a.toNat + w.bytes - 1 < 0x1000000) := by omega
      simp only [h1, h2, h3, if_true, if_false]; simp; omega
  · by_cases h2 : 0xFF0000 ≤ a.toNat
    · have h3 : ¬ a.toNat + w.bytes - 1 < 0x400000 := by omega
      have h4 : 0xFF0000 ≤ a.toNat ∧ a.toNat < 0x1000000 := by omega
      have h5 : 0xFF0000 ≤ a.toNat + w.bytes - 1 ∧ a.toNat + w.bytes - 1 < 0x1000000 := by omega
      simp only [h1, h3, h4, h5, if_false]; simp
    · have h4 : ¬ (0xFF0000 ≤ a.toNat ∧ a.toNat < 0x1000000) := by omega
      simp only [h1, h4, if_false]; simp; omega

/-- A byte of the access lies in ROM exactly when its first one does (R59). -/
theorem touchesRom_iff (a : Word) (w : Width) : touchesRom a w = true ↔ a.toNat < 0x400000 := by
  have := bytes_pos w
  unfold touchesRom
  rw [List.any_eq_true]
  constructor
  · rintro ⟨i, hi, h⟩
    rw [regionOf_eq] at h
    by_cases h1 : a.toNat + i < 0x400000
    · omega
    · rw [if_neg h1] at h
      split at h <;> simp at h
  · intro h
    exact ⟨0, by simpa using this, by rw [regionOf_eq, if_pos (by omega)]; rfl⟩

/-- The checks of the decoder pass exactly for an allowed access, and fail with the bus fault of the access (R60). -/
theorem checkAccess_eq (p : Params) (a : Word) (w : Width) (dir : Dir) :
    checkAccess p a w dir = if AccessAllowed p a w dir then .ok () else .error (.busFault a w dir) := by
  unfold checkAccess
  by_cases hb : a.toNat + w.bytes ≤ 0x1000000
  · have hb' : inBounds a w = true := (inBounds_iff a w).mpr hb
    rw [hb']
    by_cases hs : p.strictRegions = true → a.toNat + w.bytes ≤ 0x400000 ∨ 0xFF0000 ≤ a.toNat
    · have hs' : (p.strictRegions && !inOneRegion a w) = false := by
        cases hp : p.strictRegions
        · rfl
        · simpa using (inOneRegion_iff a w hb).mpr (hs hp)
      rw [hs']
      by_cases hr : p.romWriteProtect = true → dir = .write → 0x400000 ≤ a.toNat
      · have hr' : (p.romWriteProtect && dir == .write && touchesRom a w) = false := by
          cases hp : p.romWriteProtect
          · rfl
          · cases dir
            · rfl
            · have := hr hp rfl
              have : touchesRom a w = false := by
                rw [← Bool.not_eq_true, touchesRom_iff]; omega
              simp [this]
        rw [hr', if_pos (⟨hb, hs, hr⟩ : AccessAllowed p a w dir)]
        rfl
      · have hr' : (p.romWriteProtect && dir == .write && touchesRom a w) = true := by
          simp only [Classical.not_imp] at hr
          obtain ⟨h1, rfl, h3⟩ := hr
          rw [h1, (touchesRom_iff a w).mpr (by omega)]; rfl
        rw [hr', if_neg (fun h : AccessAllowed p a w dir => hr h.2.2)]
        rfl
    · have hs' : (p.strictRegions && !inOneRegion a w) = true := by
        simp only [Classical.not_imp] at hs
        have : inOneRegion a w = false := by rw [← Bool.not_eq_true, inOneRegion_iff a w hb]; exact hs.2
        rw [hs.1, this]; rfl
      rw [hs', if_neg (fun h : AccessAllowed p a w dir => hs h.2.1)]
      rfl
  · have hb' : inBounds a w = false := by rw [← Bool.not_eq_true, inBounds_iff]; exact hb
    rw [hb', if_neg (fun h : AccessAllowed p a w dir => hb h.1)]
    rfl

/-- The sized read of an allowed access (R57), and the bus fault of any other. -/
theorem memRead_eq (p : Params) (m : Memory) (a : Word) (w : Width) :
    memRead p m a w =
      if AccessAllowed p a w .read then .ok (m.readSized a.toNat w) else .error (.busFault a w .read) := by
  unfold memRead
  rw [checkAccess_eq]
  split <;> rfl

/-- The sized write of an allowed access (R58), and the bus fault of any other. -/
theorem memWrite_eq (p : Params) (m : Memory) (a : Word) (w : Width) (v : Word) :
    memWrite p m a w v =
      if AccessAllowed p a w .write then .ok (m.writeBytes a.toNat (bigEndianBytes w v))
      else .error (.busFault a w .write) := by
  unfold memWrite
  rw [checkAccess_eq]
  split <;> rfl

/-- The gate of the machine is the gate of R31. -/
theorem gated_eq (s : State) (pos : Nat) : s.gated pos = decide (s.Gate pos) := by
  rw [Bool.eq_iff_iff, decide_eq_true_iff]
  exact gated_iff s pos

/-- The SR port is closed where SR_PORT_GATED is set and the gate is active (R38). -/
theorem srPortClosed_iff (s : State) : s.srPortClosed = true ↔ s.params.srPortGated = true ∧ s.Gate 5 := by
  simp only [State.srPortClosed, Bool.and_eq_true, gated_iff, State.Gate]

end Sys2Proof.Machine
end

