-- ==== Sys2Proof/Laws/Exec.lean ====
section
/-! SUPPORT. What one command, and one step, can do: the inversion lemmas every claim about the whole machine cites. -/

namespace Sys2Proof.Machine

/-- The effect of a completed command: `u` is the state it leaves from `s`, but for its response, and `d` the datum of that
response. -/
def Effect (i : Instr) (s u : State) (d : Word) : Prop :=
  match i with
  | .bootstrap => u = (s.withSr (srSet s.regs.sr bitS true)).withLife .ready ∧ d = 0
  | .initRegions => u = s ∧ d = 0
  | .getReg reg => ∃ r, RegId.ofCode reg = some r ∧ u = s ∧ d = s.readReg r
  | .setReg reg data => ∃ r, RegId.ofCode reg = some r ∧ u = s.writeReg r data ∧ d = 0
  | .getSrBit mask =>
    ∃ pos, statusBitPos mask = .ok pos ∧ u = s ∧
      d = (BitVec.ofBool (if s.gated pos then false else s.regs.sr.getLsbD pos)).setWidth 32
  | .setSrBit bit mask =>
    ∃ pos, statusBitPos mask = .ok pos ∧ (u = if s.gated pos then s else s.withSr (srSet s.regs.sr pos bit)) ∧ d = 0
  | .memRead width addr =>
    ∃ w, Width.ofCode width = some w ∧ memRead s.params s.mem addr w = .ok d ∧ u = s
  | .memWrite width addr data =>
    ∃ w m, Width.ofCode width = some w ∧ memWrite s.params s.mem addr w data = .ok m ∧ u = s.withMem m ∧ d = 0
  | .move dreg dmode sreg smode width =>
    ∃ w src dst v t r, Width.ofCode width = some w ∧
      checkOperand s.params .source sreg smode w = .ok src ∧ resolveSource s src w = .ok v ∧
      checkOperand s.params .destination dreg dmode w = .ok dst ∧ checkNotBothIndirect src dst = .ok () ∧
      storeSized (resolveDestination s dst) v w s = .ok (t, r) ∧
      u = t.withSr (moveFlags s.params r w t.regs.sr) ∧ d = 0

/-- An error that can come up in this state: a bus fault is that of an access that is not allowed. -/
def Error.Due (s : State) (e : Error) : Prop :=
  ∀ a w dir, e = .busFault a w dir → ¬ AccessAllowed s.params a w dir

/-! Each command as the operation it performs. -/

theorem exec_bootstrap (s : State) :
    exec .bootstrap s = perform (fun s => .ok ((s.withSr (srSet s.regs.sr bitS true)).withLife .ready, 0)) s := rfl

theorem exec_initRegions (s : State) : exec .initRegions s = perform (fun s => .ok (s, 0)) s := rfl

theorem exec_getReg (reg : BitVec 5) (s : State) :
    exec (.getReg reg) s = perform (fun s => (checkRegister reg).bind fun r => .ok (s, s.readReg r)) s := rfl

theorem exec_setReg (reg : BitVec 5) (data : Word) (s : State) :
    exec (.setReg reg data) s = perform (fun s => (checkRegister reg).bind fun r => .ok (s.writeReg r data, 0)) s := rfl

theorem exec_getSrBit (mask : BitVec 16) (s : State) :
    exec (.getSrBit mask) s =
      perform (fun s => (s.srBitGet mask).bind fun b => .ok (s, (BitVec.ofBool b).setWidth 32)) s := rfl

theorem exec_setSrBit (bit : Bool) (mask : BitVec 16) (s : State) :
    exec (.setSrBit bit mask) s = perform (fun s => (s.srBitSet mask bit).bind fun t => .ok (t, 0)) s := rfl

theorem exec_memRead (width : BitVec 3) (addr : Word) (s : State) :
    exec (.memRead width addr) s =
      perform (fun s => (checkWidth width).bind fun w => (memRead s.params s.mem addr w).bind fun v => .ok (s, v)) s := rfl

theorem exec_memWrite (width : BitVec 3) (addr data : Word) (s : State) :
    exec (.memWrite width addr data) s =
      perform (fun s => (checkWidth width).bind fun w => (memWrite s.params s.mem addr w data).bind fun m =>
        .ok (s.withMem m, 0)) s := rfl

theorem exec_move (dreg : BitVec 5) (dmode : BitVec 2) (sreg : BitVec 5) (smode : BitVec 2) (width : BitVec 3) (s : State) :
    exec (.move dreg dmode sreg smode width) s = perform (moveCommand dreg dmode sreg smode width) s := rfl

/-- A halted block performs no command (R185). -/
theorem exec_of_halted (i : Instr) (s : State) (h : s.halted = true) : exec i s = .next (s.respond .halted) := by
  cases i <;>
    simp only [exec_bootstrap, exec_initRegions, exec_getReg, exec_setReg, exec_getSrBit, exec_setSrBit, exec_memRead,
      exec_memWrite, exec_move] <;>
    exact perform_of_halted _ s h

theorem due_invariant (s : State) (k : InvariantKind) : Error.Due s (.invariant k) := fun _ _ _ h => by cases h

theorem checkWidth_due (s : State) (c : BitVec 3) (e : Error) (h : checkWidth c = .error e) : Error.Due s e := by
  unfold checkWidth at h
  split at h <;> cases h
  exact due_invariant s _

theorem checkRegister_due (s : State) (c : BitVec 5) (e : Error) (h : checkRegister c = .error e) : Error.Due s e := by
  unfold checkRegister at h
  split at h <;> cases h
  exact due_invariant s _

theorem statusBitPos_due (s : State) (mask : BitVec 16) (e : Error) (h : statusBitPos mask = .error e) : Error.Due s e := by
  unfold statusBitPos at h
  split at h
  · split at h <;> cases h
    exact due_invariant s _
  · cases h; exact due_invariant s _

theorem memRead_due (s : State) (m : Memory) (a : Word) (w : Width) (e : Error) (h : memRead s.params m a w = .error e) :
    Error.Due s e := by
  rw [memRead_eq] at h
  split at h <;> cases h
  next hn => intro _ _ _ he; cases he; exact hn

theorem memWrite_due (s : State) (m : Memory) (a : Word) (w : Width) (v : Word) (e : Error)
    (h : memWrite s.params m a w v = .error e) : Error.Due s e := by
  rw [memWrite_eq] at h
  split at h <;> cases h
  next hn => intro _ _ _ he; cases he; exact hn

theorem checkOperand_due (s : State) (role : Role) (reg : BitVec 5) (mode : BitVec 2) (w : Width) (e : Error)
    (h : checkOperand s.params role reg mode w = .error e) : Error.Due s e := by
  rw [checkOperand_eq] at h
  split at h
  · cases h; exact due_invariant s _
  · split at h
    · cases h; exact due_invariant s _
    · split at h
      · cases h; exact due_invariant s _
      · split at h <;> cases h
        exact due_invariant s _

theorem resolveSource_due (s : State) (op : Operand) (w : Width) (e : Error) (h : resolveSource s op w = .error e) :
    Error.Due s e := by
  unfold resolveSource at h
  split at h
  · cases h
  · cases h
  · exact memRead_due s _ _ _ e h

theorem storeSized_due (s : State) (loc : Location) (v : Word) (w : Width) (e : Error) (h : storeSized loc v w s = .error e) :
    Error.Due s e := by
  cases loc with
  | reg r old => cases h
  | mem a =>
    unfold storeSized at h
    cases hm : memWrite s.params s.mem a w v with
    | error e' => simp only [hm, error_bind] at h; cases h; exact memWrite_due s _ _ _ _ e hm
    | ok m => simp only [hm, ok_bind] at h; cases h

theorem checkNotBothIndirect_due (s : State) (src dst : Operand) (e : Error) (h : checkNotBothIndirect src dst = .error e) :
    Error.Due s e := by
  unfold checkNotBothIndirect at h
  split at h <;> cases h
  exact due_invariant s _

/-- Two checks in sequence: the error of the first, or of the second. -/
theorem bind_due {α β : Type} (s : State) (x : Except Error α) (f : α → Except Error β)
    (hx : ∀ e, x = .error e → Error.Due s e) (hf : ∀ a e, f a = .error e → Error.Due s e) :
    ∀ e, (x >>= f) = .error e → Error.Due s e := by
  intro e h
  cases x with
  | error e' => cases h; exact hx e rfl
  | ok a => exact hf a e h

theorem moveCommand_due (dreg : BitVec 5) (dmode : BitVec 2) (sreg : BitVec 5) (smode : BitVec 2) (width : BitVec 3)
    (s : State) : ∀ e, moveCommand dreg dmode sreg smode width s = .error e → Error.Due s e :=
  bind_due s _ _ (checkWidth_due s width) fun w =>
    bind_due s _ _ (checkOperand_due s _ _ _ w) fun src =>
      bind_due s _ _ (resolveSource_due s src w) fun v =>
        bind_due s _ _ (checkOperand_due s _ _ _ w) fun dst =>
          bind_due s _ _ (checkNotBothIndirect_due s src dst) fun _ =>
            bind_due s _ _ (storeSized_due s _ v w) fun _ _ h => by cases h

theorem okay_due {α : Type} (s : State) (a : α) : ∀ e, Except.ok a = .error e → Error.Due s e := fun _ h => by cases h

/-- Everything a command can do: it is not performed because the block is halted; it ends in an error, which has no effect but
its own (R183); or it completes with its effect and an OK response. -/
theorem exec_cases (i : Instr) (s t : State) (h : exec i s = .next t) :
    (s.halted = true ∧ t = s.respond .halted) ∨
    (s.halted = false ∧ ∃ e, Error.Due s e ∧ t = s.raise e) ∨
    (s.halted = false ∧ ∃ u d, Effect i s u d ∧ t = u.respond (.ok d)) := by
  have key : ∀ (c : State → Result), perform c s = .next t → (∀ e, c s = .error e → Error.Due s e) →
      (∀ u d, c s = .ok (u, d) → Effect i s u d) →
      (s.halted = true ∧ t = s.respond .halted) ∨ (s.halted = false ∧ ∃ e, Error.Due s e ∧ t = s.raise e) ∨
      (s.halted = false ∧ ∃ u d, Effect i s u d ∧ t = u.respond (.ok d)) := by
    intro c hc hd hu
    rcases perform_cases c s t hc with h | ⟨hh, e, he, h⟩ | ⟨hh, u, d, hcs, h⟩
    · exact .inl h
    · exact .inr (.inl ⟨hh, e, hd e he, h⟩)
    · exact .inr (.inr ⟨hh, u, d, hu u d hcs, h⟩)
  cases i with
  | bootstrap =>
    unfold exec execBootstrap at h
    exact key _ h (okay_due s _) fun u d hc => by cases hc; exact ⟨rfl, rfl⟩
  | initRegions =>
    unfold exec execInitRegions at h
    exact key _ h (okay_due s _) fun u d hc => by cases hc; exact ⟨rfl, rfl⟩
  | getReg reg =>
    unfold exec execGetReg at h
    refine key _ h (bind_due s _ _ (checkRegister_due s reg) fun _ => okay_due s _) fun u d hc => ?_
    obtain ⟨r, hr, hc⟩ := bind_eq_ok _ _ _ hc
    cases hc
    exact ⟨r, checkRegister_ok _ _ hr, rfl, rfl⟩
  | setReg reg data =>
    unfold exec execSetReg at h
    refine key _ h (bind_due s _ _ (checkRegister_due s reg) fun _ => okay_due s _) fun u d hc => ?_
    obtain ⟨r, hr, hc⟩ := bind_eq_ok _ _ _ hc
    cases hc
    exact ⟨r, checkRegister_ok _ _ hr, rfl, rfl⟩
  | getSrBit mask =>
    unfold exec execGetSrBit at h
    refine key _ h (bind_due s _ _ (bind_due s _ _ (statusBitPos_due s mask) fun _ => okay_due s _) fun _ => okay_due s _)
      fun u d hc => ?_
    obtain ⟨b, hb, hc⟩ := bind_eq_ok _ _ _ hc
    obtain ⟨pos, hp, hb⟩ := bind_eq_ok _ _ _ hb
    cases hc
    cases hb
    exact ⟨pos, hp, rfl, rfl⟩
  | setSrBit bit mask =>
    unfold exec execSetSrBit at h
    refine key _ h (bind_due s _ _ (bind_due s _ _ (statusBitPos_due s mask) fun _ => okay_due s _) fun _ => okay_due s _)
      fun u d hc => ?_
    obtain ⟨u', hb, hc⟩ := bind_eq_ok _ _ _ hc
    obtain ⟨pos, hp, hb⟩ := bind_eq_ok _ _ _ hb
    cases hc
    cases hb
    exact ⟨pos, hp, rfl, rfl⟩
  | memRead width addr =>
    unfold exec execMemRead at h
    refine key _ h (bind_due s _ _ (checkWidth_due s width) fun w => bind_due s _ _ (memRead_due s _ _ w) fun _ => okay_due s _)
      fun u d hc => ?_
    obtain ⟨w, hw, hc⟩ := bind_eq_ok _ _ _ hc
    obtain ⟨v, hv, hc⟩ := bind_eq_ok _ _ _ hc
    cases hc
    exact ⟨w, checkWidth_ok _ _ hw, hv, rfl⟩
  | memWrite width addr data =>
    unfold exec execMemWrite at h
    refine key _ h (bind_due s _ _ (checkWidth_due s width) fun w => bind_due s _ _ (memWrite_due s _ _ w _) fun _ => okay_due s _)
      fun u d hc => ?_
    obtain ⟨w, hw, hc⟩ := bind_eq_ok _ _ _ hc
    obtain ⟨m, hm, hc⟩ := bind_eq_ok _ _ _ hc
    cases hc
    exact ⟨w, m, checkWidth_ok _ _ hw, hm, rfl, rfl⟩
  | move dreg dmode sreg smode width =>
    unfold exec execMove at h
    refine key _ h (moveCommand_due dreg dmode sreg smode width s) fun u d hc => ?_
    obtain ⟨w, hw, hc⟩ := bind_eq_ok _ _ _ hc
    obtain ⟨src, hsrc, hc⟩ := bind_eq_ok _ _ _ hc
    obtain ⟨v, hv, hc⟩ := bind_eq_ok _ _ _ hc
    obtain ⟨dst, hdst, hc⟩ := bind_eq_ok _ _ _ hc
    obtain ⟨⟨⟩, hb, hc⟩ := bind_eq_ok _ _ _ hc
    obtain ⟨⟨t', r⟩, hs, hc⟩ := bind_eq_ok _ _ _ hc
    cases hc
    exact ⟨w, src, dst, v, t', r, checkWidth_ok _ _ hw, hsrc, hv, hdst, hb, hs, rfl, rfl⟩

/-- Every command answers a next state: the model has no stop (log 6). -/
theorem exec_next (i : Instr) (s : State) : ∃ t, exec i s = .next t := by
  cases i <;> exact ⟨_, rfl⟩

/-- Everything one step can do: nothing, with no packet on the port; a command; or the rejection of a command word. -/
theorem step_cases (s t : State) (h : step s = .next t) :
    (s.inbox = [] ∧ t = s) ∨
    (∃ p rest i, s.inbox = p :: rest ∧ decode p = .ok i ∧ exec i { s with inbox := rest } = .next t) ∨
    (∃ p rest e, s.inbox = p :: rest ∧ decode p = .error e ∧ rejectCommand { s with inbox := rest } = .next t) := by
  unfold step State.accept at h
  cases hi : s.inbox with
  | nil => simp [hi] at h; exact .inl ⟨rfl, h.symm⟩
  | cons p rest =>
    cases hd : decode p with
    | ok i => simp [hi, hd] at h; exact .inr (.inl ⟨p, rest, i, rfl, hd, h⟩)
    | error e => simp [hi, hd] at h; exact .inr (.inr ⟨p, rest, e, rfl, hd, h⟩)

/-- The rejection of a command word: HALTED, or INVALID_COMMAND. -/
theorem rejectCommand_cases (s t : State) (h : rejectCommand s = .next t) :
    (s.halted = true ∧ t = s.respond .halted) ∨
    (s.halted = false ∧ t = s.raise (.invariant .invalidCommand)) := by
  rcases perform_cases _ s t h with h | ⟨hh, e, he, h⟩ | ⟨-, u, d, hc, -⟩
  · exact .inl h
  · cases he; exact .inr ⟨hh, h⟩
  · cases hc

/-- Everything one step can do, in the terms of Safety.lean: with no packet on the port, nothing; else it takes the packet, and
answers HALTED, or raises an error, or performs a command that completes with its effect. -/
theorem step_effect_cases (s t : State) (h : step s = .next t) :
    (s.inbox = [] ∧ t = s) ∨
    ∃ p rest s', s.inbox = p :: rest ∧ s' = { s with inbox := rest } ∧
      ((s.halted = true ∧ t = s'.respond .halted) ∨
       (s.halted = false ∧ ∃ e, Error.Due s e ∧ t = s'.raise e) ∨
       (s.halted = false ∧ ∃ i u d, s.Performs i ∧ Effect i s' u d ∧ t = u.respond (.ok d))) := by
  rcases step_cases s t h with h | ⟨p, rest, i, hi, hd, h⟩ | ⟨p, rest, e, hi, hd, h⟩
  · exact .inl h
  · refine .inr ⟨p, rest, _, hi, rfl, ?_⟩
    rcases exec_cases i _ t h with ⟨hh, h⟩ | ⟨hh, e, he, h⟩ | ⟨hh, u, d, hu, h⟩
    · exact .inl ⟨hh, h⟩
    · exact .inr (.inl ⟨hh, e, he, h⟩)
    · exact .inr (.inr ⟨hh, i, u, d, ⟨hh, p, rest, hi, hd⟩, hu, h⟩)
  · refine .inr ⟨p, rest, _, hi, rfl, ?_⟩
    rcases rejectCommand_cases _ t h with ⟨hh, h⟩ | ⟨hh, h⟩
    · exact .inl ⟨hh, h⟩
    · exact .inr (.inl ⟨hh, _, due_invariant s _, h⟩)

end Sys2Proof.Machine
end

