-- ==== Sys2Proof/Laws/Move.lean ====
section
/-! SUPPORT. The operations of MOVE on checked operands, by the numbers of their codes. -/

namespace Sys2Proof.Machine

/-- A width code names no width, or is the width in bytes (R90). -/
theorem widthOfCode_cases (c : BitVec 3) :
    (Width.ofCode c = none ∧ c.toNat ≠ 1 ∧ c.toNat ≠ 2 ∧ c.toNat ≠ 4) ∨ ∃ w, Width.ofCode c = some w ∧ c.toNat = w.bytes := by
  cases h : Width.ofCode c with
  | none => left; revert c; decide
  | some w => right; exact ⟨w, rfl, (widthOfCode_bytes c w h).symm⟩

/-- INDIRECT_WIDTH_RULE for a source (R143). -/
theorem indirectWidthChecked_source (p : Params) :
    indirectWidthChecked p .source = decide (p.indirectWidthRule ≠ .none) := by
  unfold indirectWidthChecked
  cases p.indirectWidthRule <;> rfl

/-- INDIRECT_WIDTH_RULE for a destination (R143). -/
theorem indirectWidthChecked_destination (p : Params) :
    indirectWidthChecked p .destination = decide (p.indirectWidthRule = .both) := by
  unfold indirectWidthChecked
  cases p.indirectWidthRule <;> rfl

/-- The source of a MOVE: the register, or the memory it points to (R144, R148). -/
theorem resolveSource_eq (s : State) (r : RegId) (mode : BitVec 2) (w : Width) (h : mode.toNat ≠ 3) :
    resolveSource s ⟨r, (Mode.ofCode mode).getD .indirect⟩ w =
      if mode.toNat = 2 then
        if AccessAllowed s.params (s.readReg r) w .read then .ok (Memory.readSized s.mem (s.readReg r).toNat w)
        else .error (.busFault (s.readReg r) w .read)
      else .ok (s.readReg r) := by
  rcases modeOfCode_cases mode with ⟨h1, hm⟩ | ⟨h1, hm⟩ | ⟨h1, hm⟩ | ⟨h1, hm⟩
  · exact absurd h1 h
  · rw [hm, h1]; rfl
  · rw [hm, h1]; rfl
  · rw [hm, h1, if_pos rfl, ← memRead_eq]; rfl

/-- The sized store at a resolved destination (R145–R148): the bytes, or the register merged. -/
theorem storeSized_eq (s : State) (r : RegId) (mode : BitVec 2) (v : Word) (w : Width) (h : mode.toNat ≠ 3) :
    storeSized (resolveDestination s ⟨r, (Mode.ofCode mode).getD .indirect⟩) v w s =
      if mode.toNat = 2 then
        if AccessAllowed s.params (s.readReg r) w .write then
          .ok (s.withMem (Memory.writeBytes s.mem (s.readReg r).toNat (bigEndianBytes w v)), truncTo w v)
        else .error (.busFault (s.readReg r) w .write)
      else .ok (s.writeReg r (merge (s.readReg r) v w), merge (s.readReg r) v w) := by
  rcases modeOfCode_cases mode with ⟨h1, hm⟩ | ⟨h1, hm⟩ | ⟨h1, hm⟩ | ⟨h1, hm⟩
  · exact absurd h1 h
  · rw [hm, h1]; rfl
  · rw [hm, h1]; rfl
  · rw [hm, h1, if_pos rfl]
    show (memWrite _ _ _ _ _ >>= _) = _
    rw [memWrite_eq]
    split <;> rfl

/-- The ban on two indirect operands (R157). -/
theorem checkNotBothIndirect_eq (rs rd : RegId) (smode dmode : BitVec 2) (h : smode.toNat ≠ 3) (h' : dmode.toNat ≠ 3) :
    checkNotBothIndirect ⟨rs, (Mode.ofCode smode).getD .indirect⟩ ⟨rd, (Mode.ofCode dmode).getD .indirect⟩ =
      if smode.toNat = 2 ∧ dmode.toNat = 2 then .error (.invariant .indirectToIndirect) else .ok () := by
  rcases modeOfCode_cases smode with ⟨h1, hm⟩ | ⟨h1, hm⟩ | ⟨h1, hm⟩ | ⟨h1, hm⟩ <;>
    rcases modeOfCode_cases dmode with ⟨h1', hm'⟩ | ⟨h1', hm'⟩ | ⟨h1', hm'⟩ | ⟨h1', hm'⟩ <;>
    first | exact absurd h1 h | exact absurd h1' h' | (rw [hm, hm', h1, h1']; rfl)

/-- The checks of an operand that passes them. -/
theorem checkOperand_of_passes (p : Params) (role : Role) (reg : BitVec 5) (mode : BitVec 2) (w : Width) (r : RegId)
    (hr : RegId.ofCode reg = some r) (hk : kindMatches reg mode = true)
    (hi : mode.toNat = 2 → w = .long ∨ indirectWidthChecked p role = false) :
    mode.toNat ≠ 3 ∧ checkOperand p role reg mode w = .ok ⟨r, (Mode.ofCode mode).getD .indirect⟩ := by
  have hlt := (ofCode_isSome_iff reg).mp (by simp [hr])
  have h3 : mode.toNat ≠ 3 := fun h => by simp [kindMatches, h] at hk
  have h4 : ¬ (mode.toNat = 2 ∧ w ≠ .long ∧ indirectWidthChecked p role = true) := fun ⟨h2, hw, hc⟩ => by
    rcases hi h2 with h | h
    · exact hw h
    · simp [h] at hc
  refine ⟨h3, ?_⟩
  rw [checkOperand_eq, if_neg h3, if_neg (by omega), if_neg (by simp [hk]), if_neg h4, hr]
  rfl

/-- Code 2 is the indirect mode (R91). -/
theorem modeOfCode_indirect (c : BitVec 2) (m : Mode) (h : Mode.ofCode c = some m) : m = .indirect ↔ c = 2 := by
  revert c; cases m <;> decide

/-- The two ends of a completed MOVE: a register other than SR and PC written, or the bytes at the destination's pointer; and
the flags in both. -/
theorem move_effect_cases (s u : State) (d : Word) (dreg : BitVec 5) (dmode : BitVec 2) (sreg : BitVec 5) (smode : BitVec 2)
    (width : BitVec 3) (h : Effect (.move dreg dmode sreg smode width) s u d) :
    ∃ w rd v r, Width.ofCode width = some w ∧ RegId.ofCode dreg = some rd ∧ rd ≠ .sr ∧ rd ≠ .pc ∧ d = 0 ∧
      ((dmode ≠ 2 ∧ r = merge (s.readReg rd) v w ∧ u = (s.writeReg rd r).withSr (moveFlags s.params r w s.regs.sr)) ∨
       (dmode = 2 ∧ r = truncTo w v ∧ (s.readReg rd).toNat + w.bytes ≤ capacity ∧
        u = (s.withMem (Memory.writeBytes s.mem (s.readReg rd).toNat (bigEndianBytes w v))).withSr
          (moveFlags s.params r w s.regs.sr))) := by
  obtain ⟨w, src, dst, v, t, r, hw, -, -, hdst, -, hs, rfl, rfl⟩ := h
  obtain ⟨hrd, hm, hk, -⟩ := checkOperand_ok _ _ _ _ _ _ hdst
  have hne := kindSuits_ne_sr _ _ hk
  have hcell : registerCell dst.reg s.supervisor ≠ .sr := fun h => hne.1 ((registerCell_eq_sr _ _).mp h)
  have hmode := modeOfCode_indirect dmode dst.mode hm
  refine ⟨w, dst.reg, v, r, hw, hrd, hne.1, hne.2, rfl, ?_⟩
  rcases storeSized_cases _ _ _ _ _ _ hs with ⟨rd, old, hl, rfl, rfl⟩ | ⟨a, hl, hb, rfl, rfl⟩
  · left
    unfold resolveDestination at hl
    have hd : dmode ≠ 2 := fun h => by rw [hmode.mpr h] at hl; cases hl
    have hold : rd = dst.reg ∧ old = s.readReg dst.reg := by
      split at hl
      · cases hl; exact ⟨rfl, rfl⟩
      · cases hl; exact ⟨rfl, rfl⟩
      · cases hl
    obtain ⟨rfl, rfl⟩ := hold
    refine ⟨hd, rfl, ?_⟩
    rw [writeReg_of_ne_sr _ _ _ hne.1, withRegs_regs, set_sr _ _ _ hcell]
  · right
    unfold resolveDestination at hl
    have hi : dst.mode = .indirect := by
      cases h : dst.mode with
      | indirect => rfl
      | dataDirect => rw [h] at hl; cases hl
      | addressDirect => rw [h] at hl; cases hl
    rw [hi] at hl
    cases hl
    exact ⟨hmode.mp hi, rfl, hb, rfl⟩

/-- What no command changes, and the canonical form of the store that every command keeps. -/
theorem effect_keeps (i : Instr) (s u : State) (d : Word) (h : Effect i s u d) :
    u.params = s.params ∧ u.halted = s.halted ∧ u.fault = s.fault ∧ u.inbox = s.inbox ∧ (Memory.wf s.mem → Memory.wf u.mem) := by
  cases i with
  | bootstrap => obtain ⟨rfl, -⟩ := h; simp
  | initRegions => obtain ⟨rfl, -⟩ := h; simp
  | getReg reg => obtain ⟨_, _, rfl, -⟩ := h; simp
  | setReg reg data => obtain ⟨_, _, rfl, -⟩ := h; simp
  | getSrBit mask => obtain ⟨_, _, rfl, -⟩ := h; simp
  | setSrBit bit mask => obtain ⟨_, _, rfl, -⟩ := h; split <;> simp
  | memRead width addr => obtain ⟨_, _, _, rfl⟩ := h; simp
  | memWrite width addr data =>
    obtain ⟨_, m, _, hm, rfl, -⟩ := h
    exact ⟨rfl, rfl, rfl, rfl, fun hw => memWrite_wf _ _ _ _ _ _ hw hm⟩
  | move dreg dmode sreg smode width =>
    obtain ⟨w, rd, v, r, -, -, -, -, -, ⟨-, -, rfl⟩ | ⟨-, -, hb, rfl⟩⟩ := move_effect_cases _ _ _ _ _ _ _ _ h
    · simp
    · exact ⟨rfl, rfl, rfl, rfl, fun hw => writeBytes_wf _ _ _ hw (by simpa using hb)⟩

end Sys2Proof.Machine
end

