-- ==== Sys2Proof/Laws/PerInstr.lean ====
section
/-! SUPPORT. A law of every command as syntax: its encoding lies in its own row of spec/opcode_table.json. -/

namespace Sys2Proof.Laws.EncodesInRow

/-- The row's mask and match in spec/opcode_table.json. -/
def row : Instr → Word × Word
  | .bootstrap => (0xFFFFFFFF, 0x00000000)
  | .initRegions => (0xFFFFFFFF, 0x10000000)
  | .getReg _ => (0xFFFFFFE0, 0x20000000)
  | .setReg _ _ => (0xFFFFFFE0, 0x30000000)
  | .getSrBit _ => (0xFFFF0000, 0x40000000)
  | .setSrBit _ _ => (0xFFFE0000, 0x50000000)
  | .memRead _ _ => (0xFFFFFFF8, 0x60000000)
  | .memWrite _ _ _ => (0xFFFFFFF8, 0x70000000)
  | .move _ _ _ _ _ => (0xFFFE0000, 0x80000000)

/-- The fixed bits of the command word are those of the command's row. -/
def Statement (i : Instr) : Prop := (encode i).cmd &&& (row i).1 = (row i).2

/-- Low bits below the fixed ones do not reach the masked word. -/
theorem append_and_mask {k n : Nat} (hi : BitVec k) (lo : BitVec n) :
    (hi ++ lo) &&& (BitVec.allOnes k ++ 0#n) = hi ++ 0#n := by
  rw [BitVec.and_append]
  simp

theorem bootstrap : Statement .bootstrap := rfl

theorem initRegions : Statement .initRegions := rfl

theorem getReg (reg : BitVec 5) : Statement (.getReg reg) := append_and_mask (0x2#4 ++ 0#23) reg

theorem setReg (reg : BitVec 5) (data : Word) : Statement (.setReg reg data) := append_and_mask (0x3#4 ++ 0#23) reg

theorem getSrBit (mask : BitVec 16) : Statement (.getSrBit mask) := append_and_mask (0x4#4 ++ 0#12) mask

theorem setSrBit (bit : Bool) (mask : BitVec 16) : Statement (.setSrBit bit mask) := by
  have h : (0x5#4 ++ 0#11 ++ BitVec.ofBool bit ++ mask) &&& (BitVec.allOnes (4 + 11) ++ 0#1 ++ 0#16) =
      0x5#4 ++ 0#11 ++ 0#1 ++ 0#16 := by
    simp only [BitVec.and_append]
    simp
  exact h

theorem memRead (width : BitVec 3) (addr : Word) : Statement (.memRead width addr) :=
  append_and_mask (0x6#4 ++ 0#25) width

theorem memWrite (width : BitVec 3) (addr data : Word) : Statement (.memWrite width addr data) :=
  append_and_mask (0x7#4 ++ 0#25) width

theorem move (dreg : BitVec 5) (dmode : BitVec 2) (sreg : BitVec 5) (smode : BitVec 2) (width : BitVec 3) :
    Statement (.move dreg dmode sreg smode width) := by
  have h : (0x8#4 ++ 0#11 ++ dreg ++ dmode ++ sreg ++ smode ++ width) &&&
      (BitVec.allOnes (4 + 11) ++ 0#5 ++ 0#2 ++ 0#5 ++ 0#2 ++ 0#3) =
      0x8#4 ++ 0#11 ++ 0#5 ++ 0#2 ++ 0#5 ++ 0#2 ++ 0#3 := by
    simp only [BitVec.and_append]
    simp
  exact h

end Sys2Proof.Laws.EncodesInRow
end

