-- ==== Sys2Proof/Laws/Response.lean ====
section
/-! SUPPORT. No command depends on what stands on the response port. -/

namespace Sys2Proof.Machine

@[simp] theorem readReg_respond (s : State) (r : RegId) (x : Response) : (s.respond x).readReg r = s.readReg r := rfl

@[simp] theorem supervisor_respond (s : State) (x : Response) : (s.respond x).supervisor = s.supervisor := rfl

@[simp] theorem gated_respond (s : State) (pos : Nat) (x : Response) : (s.respond x).gated pos = s.gated pos := rfl

@[simp] theorem srPortClosed_respond (s : State) (x : Response) : (s.respond x).srPortClosed = s.srPortClosed := rfl

@[simp] theorem respond_respond (s : State) (x y : Response) : (s.respond x).respond y = s.respond y := rfl

@[simp] theorem raise_respond (s : State) (e : Error) (x : Response) : (s.respond x).raise e = s.raise e := by
  unfold State.raise
  rw [respond_params]
  split <;> rfl

theorem writeReg_respond (s : State) (r : RegId) (v : Word) (x : Response) :
    (s.respond x).writeReg r v = (s.writeReg r v).respond x := by
  unfold State.writeReg
  rw [supervisor_respond, srPortClosed_respond]
  split
  · split <;> rfl
  · rfl

/-- A command that carries the response port along gives the same outcome whatever stands on it. -/
theorem perform_respond (c : State → Result) (s : State) (x : Response)
    (h : c (s.respond x) = (c s).map fun y => (y.1.respond x, y.2)) : perform c (s.respond x) = perform c s := by
  unfold perform
  rw [respond_halted, respond_respond, h]
  cases c s with
  | error e => simp [Except.map, State.finish]
  | ok y => simp [Except.map, State.finish]

theorem resolveSource_respond (s : State) (op : Operand) (w : Width) (x : Response) :
    resolveSource (s.respond x) op w = resolveSource s op w := rfl

theorem resolveDestination_respond (s : State) (op : Operand) (x : Response) :
    resolveDestination (s.respond x) op = resolveDestination s op := rfl

theorem storeSized_respond (loc : Location) (v : Word) (w : Width) (s : State) (x : Response) :
    storeSized loc v w (s.respond x) = (storeSized loc v w s).map fun y => (y.1.respond x, y.2) := by
  cases loc with
  | reg r old => simp [storeSized, Except.map, writeReg_respond]
  | mem a =>
    unfold storeSized
    show (memWrite s.params s.mem a w v).bind _ = ((memWrite s.params s.mem a w v).bind _).map _
    cases memWrite s.params s.mem a w v <;> rfl

theorem moveCommand_respond (dreg : BitVec 5) (dmode : BitVec 2) (sreg : BitVec 5) (smode : BitVec 2) (width : BitVec 3)
    (s : State) (x : Response) :
    moveCommand dreg dmode sreg smode width (s.respond x) =
      (moveCommand dreg dmode sreg smode width s).map fun y => (y.1.respond x, y.2) := by
  unfold moveCommand
  simp only [respond_params, resolveSource_respond, resolveDestination_respond, storeSized_respond]
  cases checkWidth width with
  | error e => rfl
  | ok w =>
    cases hs : checkOperand s.params .source sreg smode w with
    | error e => simp [hs, bind, Except.bind, Except.map]
    | ok src =>
      cases hv : resolveSource s src w with
      | error e => simp [hs, hv, bind, Except.bind, Except.map]
      | ok v =>
        cases hd : checkOperand s.params .destination dreg dmode w with
        | error e => simp [hs, hv, hd, bind, Except.bind, Except.map]
        | ok dst =>
          cases hb : checkNotBothIndirect src dst with
          | error e => simp [hs, hv, hd, hb, bind, Except.bind, Except.map]
          | ok u =>
            cases ht : storeSized (resolveDestination s dst) v w s with
            | error e => simp [hs, hv, hd, hb, ht, bind, Except.bind, Except.map]
            | ok t => simp [hs, hv, hd, hb, ht, bind, Except.bind, Except.map, pure, Except.pure]; rfl

/-- No command's outcome depends on the response port. -/
theorem exec_respond (i : Instr) (s : State) (x : Response) : exec i (s.respond x) = exec i s := by
  cases i with
  | bootstrap =>
    rw [exec_bootstrap, exec_bootstrap]
    exact perform_respond _ s x rfl
  | initRegions =>
    rw [exec_initRegions, exec_initRegions]
    exact perform_respond _ s x rfl
  | getReg reg =>
    rw [exec_getReg, exec_getReg]
    refine perform_respond _ s x ?_
    cases checkRegister reg <;> rfl
  | setReg reg data =>
    rw [exec_setReg, exec_setReg]
    refine perform_respond _ s x ?_
    cases checkRegister reg with
    | error e => rfl
    | ok r => simp [Except.bind, Except.map, writeReg_respond]
  | getSrBit mask =>
    rw [exec_getSrBit, exec_getSrBit]
    refine perform_respond _ s x ?_
    unfold State.srBitGet
    cases statusBitPos mask <;> rfl
  | setSrBit bit mask =>
    rw [exec_setSrBit, exec_setSrBit]
    refine perform_respond _ s x ?_
    unfold State.srBitSet
    cases statusBitPos mask with
    | error e => rfl
    | ok pos =>
      by_cases h : s.gated pos = true
      · simp [h, bind, Except.bind, pure, Except.pure, Except.map]
      · simp [h, bind, Except.bind, pure, Except.pure, Except.map]; rfl
  | memRead width addr =>
    rw [exec_memRead, exec_memRead]
    refine perform_respond _ s x ?_
    cases checkWidth width with
    | error e => rfl
    | ok w =>
      show (memRead s.params s.mem addr w).bind _ = ((memRead s.params s.mem addr w).bind _).map _
      cases memRead s.params s.mem addr w <;> rfl
  | memWrite width addr data =>
    rw [exec_memWrite, exec_memWrite]
    refine perform_respond _ s x ?_
    cases checkWidth width with
    | error e => rfl
    | ok w =>
      show (memWrite s.params s.mem addr w data).bind _ = ((memWrite s.params s.mem addr w data).bind _).map _
      cases memWrite s.params s.mem addr w data <;> rfl
  | move dreg dmode sreg smode width => exact perform_respond _ s x (moveCommand_respond dreg dmode sreg smode width s x)

end Sys2Proof.Machine
end

