-- ==== Sys2Proof/Tests/Slice0.lean ====
section
/-! SUPPORT. Tests on fixed values, taken from spec/95_test_vectors.md and the formats of spec/30_encoding.md, and for each
statement with hypotheses a concrete state that meets them (`witness_…`). -/

namespace Sys2Proof.Tests

open Sys2Proof.Machine

/-- A Ready block with default parameters and this SR, every other register 0. -/
def ready (sr : BitVec 16) : State :=
  { State.reset with life := .ready, regs := { Regs.zero with sr := sr } }

/-- The state after a step that takes this packet. -/
def after (s : State) (cmd addr data : Word) : State :=
  match step (s.offer ⟨cmd, addr, data⟩) with
  | .next t => t
  | .fault _ => s
  | .refused _ => s

/-- The state after a step. -/
def stepped (s : State) : State :=
  match step s with
  | .next t => t
  | .fault _ => s
  | .refused _ => s

/-- The state after a command. -/
def performed (i : Instr) (s : State) : State :=
  match exec i s with
  | .next t => t
  | .fault _ => s
  | .refused _ => s

theorem step_stepped (s : State) : step s = .next (stepped s) := by
  obtain ⟨t, h⟩ := step_next s
  simp [stepped, h]

theorem exec_performed (i : Instr) (s : State) : exec i s = .next (performed i s) := by
  obtain ⟨t, h⟩ := exec_next i s
  simp [performed, h]

/-- OK with its datum (95_test_vectors.md, Conventions). -/
def okay (v : Word) : Option Response := some ⟨0, v, 0, 0, 0, 0⟩

/-- INVARIANT with its subcode. -/
def inv (k : BitVec 4) : Option Response := some ⟨2, 0, k, 0, 0, 0⟩

/-- BUS_FAULT with its details. -/
def bf (a : Word) (w : BitVec 3) (dir : BitVec 1) : Option Response := some ⟨1, 0, 0, a, w, dir⟩

/-- HALTED. -/
def haltedResponse : Option Response := some ⟨3, 0, 0, 0, 0, 0⟩

/-! ### Decoding: a word of every command, bit by bit from the formats R83–R88 -/

theorem test_decode_bootstrap : decode ⟨0b0000_0000000000000000000000000000, 7, 9⟩ = .ok .bootstrap := by decide

theorem test_decode_initRegions : decode ⟨0b0001_0000000000000000000000000000, 0, 0⟩ = .ok .initRegions := by decide

theorem test_decode_getReg : decode ⟨0b0010_00000000000000000000000_10011, 0, 0⟩ = .ok (.getReg 19) := by decide

theorem test_decode_setReg :
    decode ⟨0b0011_00000000000000000000000_01011, 0, 0x80000000⟩ = .ok (.setReg 11 0x80000000) := by decide

theorem test_decode_getSrBit : decode ⟨0b0100_000000000000_1000000000000000, 0, 0⟩ = .ok (.getSrBit 0x8000) := by decide

theorem test_decode_setSrBit :
    decode ⟨0b0101_00000000000_1_0010000000000000, 0, 0⟩ = .ok (.setSrBit true 0x2000) := by decide

theorem test_decode_memRead :
    decode ⟨0b0110_0000000000000000000000000_010, 0xFF0001, 5⟩ = .ok (.memRead 2 0xFF0001) := by decide

theorem test_decode_memWrite :
    decode ⟨0b0111_0000000000000000000000000_100, 0xFF0000, 0x11223344⟩ = .ok (.memWrite 4 0xFF0000 0x11223344) := by decide

theorem test_decode_move :
    decode ⟨0b1000_00000000000_01101_10_01100_10_100, 0, 0⟩ = .ok (.move 13 2 12 2 4) := by decide

theorem test_decode_reserved_op : decode ⟨0x90000000, 0, 0⟩ = .error .reservedOp := by decide

theorem test_decode_reserved_bit : decode ⟨0x800240A1, 0, 0⟩ = .error .reservedBits := by decide

/-- The encoder writes the words of 95_test_vectors.md E7 and E8. -/
theorem test_encode :
    encode (.move 4 0 5 0 1) = ⟨0x800040A1, 0, 0⟩ ∧ encode (.memRead 1 0xFF0010) = ⟨0x60000001, 0xFF0010, 0⟩ := by decide

/-- The bits of spec/opcode_table.json: CMD, then ADDR, then DATA. -/
theorem test_decodeTableWord :
    decodeTableWord 96 (0x70000004 + 0xFF0000 * 2 ^ 32 + 0x11223344 * 2 ^ 64) = some (.memWrite 4 0xFF0000 0x11223344) ∧
    decodeTableWord 32 0x60000001 = some (.memRead 1 0) ∧ decodeTableWord 32 0x90000000 = none := by decide

theorem test_withFetchWord :
    (stepped (State.reset.withFetchWord 32 0x00000000)).life = .ready ∧
    (stepped (State.reset.withFetchWord 96 (0x30000004 + 5 * 2 ^ 64))).regs.d0 = 5 := by decide

/-! ### Well-formedness: an ill-formed command for each check -/

theorem test_wellFormed :
    (Instr.move 13 2 5 0 4).wellFormed = true ∧ (Instr.getReg 19).wellFormed = true ∧
    (Instr.setSrBit true 0x8000).wellFormed = true ∧ (Instr.memWrite 4 0 0).wellFormed = true := by decide

theorem test_illFormed_register : (Instr.getReg 20).wellFormed = false ∧ (Instr.setReg 31 0).wellFormed = false := by decide

theorem test_illFormed_width : (Instr.memRead 3 0).wellFormed = false ∧ (Instr.memWrite 0 0 0).wellFormed = false := by decide

theorem test_illFormed_mask :
    (Instr.getSrBit 0).wellFormed = false ∧ (Instr.getSrBit 3).wellFormed = false ∧
    (Instr.setSrBit true 0x0020).wellFormed = false ∧ (Instr.setSrBit false 0x0800).wellFormed = false := by decide

theorem test_illFormed_move :
    (Instr.move 4 0 5 0 3).wellFormed = false ∧ (Instr.move 4 0 5 3 1).wellFormed = false ∧
    (Instr.move 4 0 0 0 1).wellFormed = false ∧ (Instr.move 4 2 5 0 1).wellFormed = false ∧
    (Instr.move 13 2 12 2 4).wellFormed = false := by decide

/-! ### One step of each command -/

/-- E4, step 4: S forced on, no other bit of SR changed, Ready. -/
theorem test_bootstrap :
    let t := after { State.reset with regs := { Regs.zero with sr := 0x8000 } } 0x00000000 0 0
    t.regs.sr = 0xA000 ∧ t.life = .ready ∧ t.response = okay 0 := by decide

theorem test_initRegions : (after (ready 0x2000) 0x10000000 0 0).response = okay 0 := by decide

/-- E2, step 1. -/
theorem test_getReg_a7 :
    let s := { ready 0x2000 with regs := { (ready 0x2000).regs with ssp := 0x00FFFE00, usp := 0x00FF8000 } }
    (after s 0x20000013 0 0).response = okay 0x00FFFE00 := by decide

/-- 2.1: SR_PORT_GATED in user mode hides the bits above EXTEND. -/
theorem test_getReg_sr_gated :
    let s := { ready 0x0715 with params := { Params.default with srPortGated := true } }
    (after s 0x20000001 0 0).response = okay 0x15 := by decide

/-- 2.1: SR keeps 16 bits. -/
theorem test_setReg_sr : (after (ready 0x2000) 0x30000001 0 0x0001FFFF).regs.sr = 0xFFFF := by decide

/-- 2.1: SR_PORT_GATED in user mode writes bits 4–0 only. -/
theorem test_setReg_sr_gated :
    let s := { ready 0x0700 with params := { Params.default with srPortGated := true } }
    (after s 0x30000001 0 0x2715).regs.sr = 0x0715 := by decide

/-- E4, step 7: a gated read answers 0. -/
theorem test_getSrBit_gated : (after (ready 0x8000) 0x40008000 0 0).response = okay 0 := by decide

/-- E4, step 12: EXTEND is not gated. -/
theorem test_getSrBit : (after (ready 0x8010) 0x40000010 0 0).response = okay 1 := by decide

/-- E4, step 9: a gated write is ignored and completes. -/
theorem test_setSrBit_gated :
    let t := after (ready 0x8000) 0x50012000 0 0
    t.regs.sr = 0x8000 ∧ t.response = okay 0 := by decide

/-- E3: one bit set, no other changed. -/
theorem test_setSrBit : (after (ready 0x2000) 0x50014000 0 0).regs.sr = 0x6000 := by decide

/-- E5: a word at an odd address, big-endian. -/
theorem test_memRead :
    let s := { ready 0x2000 with mem := [(0xFF0000, 0x11), (0xFF0001, 0x22), (0xFF0002, 0x33), (0xFF0003, 0x44)] }
    (after s 0x60000002 0xFF0001 0).response = okay 0x2233 := by decide

/-- E6: no wrap of the sum, and the halt latched. -/
theorem test_memRead_fault :
    let t := after (ready 0x2000) 0x60000004 0xFFFFFFFF 0
    t.response = bf 0xFFFFFFFF 4 0 ∧ t.halted = true := by decide

/-- E5: the low bytes of DATA, the most significant first; a zero byte of the value leaves no cell. -/
theorem test_memWrite :
    (after { ready 0x2000 with mem := [(0xFF0001, 0x55)] } 0x70000004 0xFF0000 0x11003344).mem =
      [(0xFF0000, 0x11), (0xFF0002, 0x33), (0xFF0003, 0x44)] := by decide

/-- 2.2: ROM_WRITE_PROTECT, an access that straddles the end of ROM. -/
theorem test_memWrite_rom :
    let t := after { ready 0x2000 with params := { Params.default with romWriteProtect := true } } 0x70000004 0x3FFFFE 0xFF
    t.response = bf 0x3FFFFE 4 1 ∧ t.mem = [] := by decide

/-- 2.3, the flag table: `move.b d1, d0` of 0x80 from SR 201F. -/
theorem test_move :
    let s := { ready 0x201F with regs := { (ready 0x201F).regs with d0 := 0xCAFEBABE, d1 := 0x00000080 } }
    let t := after s 0x800040A1 0 0
    t.regs.d0 = 0xCAFEBA80 ∧ t.regs.sr = 0x2018 ∧ t.response = okay 0 := by decide

/-- 2.3: `move.b d0, (a1)` at the last byte of the space. -/
theorem test_move_memory :
    let s := { ready 0x201F with regs := { (ready 0x201F).regs with a1 := 0x00FFFFFF, d0 := 0xAABBCCDD } }
    let t := after s 0x8000D881 0 0
    t.mem = [(0xFFFFFF, 0xDD)] ∧ t.regs.sr = 0x2018 := by decide

/-- E9 and 2.3: the errors of a MOVE, and the reserved word of 2.2. -/
theorem test_errors :
    (after { ready 0x2000 with regs := { (ready 0x2000).regs with a0 := 0xFF0010, a1 := 0xFF0020 } } 0x8000D994 0 0).response =
      inv 7 ∧
    (after (ready 0x2000) 0x80004192 0 0).response = inv 6 ∧
    (after (ready 0x2000) 0x800010A1 0 0).response = inv 5 ∧
    (after (ready 0x2000) 0x40000800 0 0).response = inv 8 ∧
    (after (ready 0x2000) 0x90000000 0 0).response = inv 1 := by decide

/-- 2.5: the halt check comes before every other. -/
theorem test_halted :
    (after { ready 0x2000 with halted := true, fault := some (.invariant .invalidMask) } 0xF0000000 0 0).response =
      haltedResponse := by decide

/-! ### Witnesses: the hypotheses of each statement, met together -/

/-- A Ready block in this mode with some registers and one byte of memory, and this packet on the command port. -/
def busy (sr : BitVec 16) (p : Packet) : State :=
  { ready sr with
    regs := { (ready sr).regs with a0 := 0xFF0010, a1 := 0xFF0020, d0 := 0x12345678, ssp := 0xFFFF00, usp := 0xFF8000 }
    mem := [(0xFF0010, 0xAB)]
    inbox := [p] }

theorem witness_EncodeOfDecodeIsThePacket : decode ⟨0x70000004, 0xFF0000, 5⟩ = .ok (.memWrite 4 0xFF0000 5) := by decide

theorem witness_UnusedOperandWordsAreIgnored : decode ⟨0x30000004, 9, 5⟩ = .ok (.setReg 4 5) := by decide

/-- A command word for each clause: the first and the last reserved OP, and the lowest reserved bit of each format. -/
theorem witness_ReservedEncodingsRaiseInvalidCommand :
    ∀ cmd ∈ [0x90000000#32, 0xF0000000, 0x00000001, 0x18000000, 0x20000020, 0x30000020, 0x40010000, 0x50020000, 0x80020000,
        0x60000008, 0x70000008],
      (busy 0x2000 ⟨cmd, 0, 0⟩).inbox = [⟨cmd, 0, 0⟩] ∧ (busy 0x2000 ⟨cmd, 0, 0⟩).halted = false ∧
      let op := cmd.toNat / 2 ^ 28
      let low := cmd.toNat % 2 ^ 28
      (9 ≤ op ∨ ((op = 0 ∨ op = 1) ∧ low ≠ 0) ∨ ((op = 2 ∨ op = 3) ∧ low / 2 ^ 5 ≠ 0) ∨ (op = 4 ∧ low / 2 ^ 16 ≠ 0) ∨
        ((op = 5 ∨ op = 8) ∧ low / 2 ^ 17 ≠ 0) ∨ ((op = 6 ∨ op = 7) ∧ low / 2 ^ 3 ≠ 0)) := by
  intro cmd h
  simp only [List.mem_cons, List.not_mem_nil, or_false] at h
  rcases h with h | h | h | h | h | h | h | h | h | h | h <;> subst h <;> exact ⟨rfl, rfl, by decide⟩

theorem witness_StepPerformsTheDecodedCommand :
    (busy 0x2000 ⟨0x20000004, 0, 0⟩).inbox = [⟨0x20000004, 0, 0⟩] ∧ decode ⟨0x20000004, 0, 0⟩ = .ok (.getReg 4) := by decide

theorem witness_StepWithoutCommandChangesNothing : State.reset.inbox = [] := rfl

/-- A command that completes, one that raises, and a reserved word. -/
theorem witness_EveryCommandIsAnsweredOnce :
    (busy 0x2000 ⟨0x20000004, 0, 0⟩).inbox = [⟨0x20000004, 0, 0⟩] ∧
    (busy 0x2000 ⟨0x20000014, 0, 0⟩).inbox = [⟨0x20000014, 0, 0⟩] ∧
    (busy 0x2000 ⟨0x90000000, 0, 0⟩).inbox = [⟨0x90000000, 0, 0⟩] := ⟨rfl, rfl, rfl⟩

/-- A latched bus fault, a recoverable one, an internal-invariant violation, and a reserved word. -/
theorem witness_ErrorsHaveNoOtherEffect :
    (let s := busy 0 ⟨0x60000002, 0xFFFFFF, 0⟩
     s.halted = false ∧ step s = .next (stepped s) ∧ (stepped s).response = bf 0xFFFFFF 2 0 ∧ (stepped s).halted = true) ∧
    (let s := { busy 0 ⟨0x60000002, 0xFFFFFF, 0⟩ with params := { Params.default with busFaultRecoverable := true } }
     s.halted = false ∧ step s = .next (stepped s) ∧ (stepped s).response = bf 0xFFFFFF 2 0 ∧ (stepped s).halted = false) ∧
    (let s := busy 0 ⟨0x20000014, 0, 0⟩
     s.halted = false ∧ step s = .next (stepped s) ∧ (stepped s).response = inv 2 ∧ (stepped s).halted = true) ∧
    (let s := busy 0 ⟨0x90000000, 0, 0⟩
     s.halted = false ∧ step s = .next (stepped s) ∧ (stepped s).response = inv 1 ∧ (stepped s).halted = true) :=
  ⟨⟨rfl, step_stepped _, by decide, by decide⟩, ⟨rfl, step_stepped _, by decide, by decide⟩,
    ⟨rfl, step_stepped _, by decide, by decide⟩, rfl, step_stepped _, by decide, by decide⟩

/-- A halted block with a recorded bus fault, and a packet. -/
def haltedState : State :=
  { busy 0x2000 ⟨0x00000000, 0, 0⟩ with halted := true, fault := some (.busFault 0xFFFFFF .word .read) }

theorem witness_HaltedBlockPerformsNothing : haltedState.halted = true ∧ haltedState.inbox = [⟨0, 0, 0⟩] := ⟨rfl, rfl⟩

theorem witness_HaltIsPermanentOverEveryRun : haltedState.halted = true := rfl

/-- SR with the port open and closed, and A7 in both modes. -/
theorem witness_GetRegAnswersTheRegister :
    (ready 0x2000).halted = false ∧ (ready 0x0715).halted = false ∧
    ¬ ((ready 0x0715).params.srPortGated = true ∧ (ready 0x0715).Gate 5) ∧
    (let s := { ready 0x0715 with params := { Params.default with srPortGated := true } }
     s.halted = false ∧ s.params.srPortGated = true ∧ s.Gate 5) ∧
    (ready 0x2000).regs.sr.getLsbD 13 = true ∧ (ready 0x0715).regs.sr.getLsbD 13 = false := by decide

theorem witness_SetRegWritesTheRegister :
    (busy 0x2000 ⟨0, 0, 0⟩).halted = false ∧
    ((0 : BitVec 5), { (busy 0x2000 ⟨0, 0, 0⟩).regs with pc := 0xFFFFFFFF }) ∈
      [((0 : BitVec 5), { (busy 0x2000 ⟨0, 0, 0⟩).regs with pc := 0xFFFFFFFF })] := ⟨rfl, List.mem_cons_self⟩

theorem witness_UnnamedRegisterCodesRaise :
    (ready 0).halted = false ∧ 20 ≤ BitVec.toNat (20 : BitVec 5) ∧ 20 ≤ BitVec.toNat (31 : BitVec 5) := by decide

theorem witness_RegisterRoundTrip :
    (ready 0).halted = false ∧ (ready 0).params.srPortGated = false ∧ BitVec.toNat (0 : BitVec 5) < 20 ∧
      BitVec.toNat (1 : BitVec 5) < 20 ∧ BitVec.toNat (19 : BitVec 5) < 20 := by decide

/-- Each of the three writers of S, the two first ones in both directions. -/
theorem witness_ModeSwitchIsImmediate :
    (ready 0x2000).halted = false ∧ (ready 0).halted = false ∧
    (¬ ((ready 0x2000).params.srPortGated = true ∧ (ready 0x2000).Gate 5) ∧ false = BitVec.getLsbD (0 : Word) 13 ∧
      exec (.setReg 1 0) (ready 0x2000) = .next (performed (.setReg 1 0) (ready 0x2000))) ∧
    (¬ ((ready 0).params.srPortGated = true ∧ (ready 0).Gate 5) ∧ true = BitVec.getLsbD (0x2000 : Word) 13 ∧
      exec (.setReg 1 0x2000) (ready 0) = .next (performed (.setReg 1 0x2000) (ready 0))) ∧
    (¬ (ready 0x2000).Gate 13 ∧
      exec (.setSrBit false 0x2000) (ready 0x2000) = .next (performed (.setSrBit false 0x2000) (ready 0x2000))) ∧
    (¬ State.reset.Gate 13 ∧
      exec (.setSrBit true 0x2000) State.reset = .next (performed (.setSrBit true 0x2000) State.reset)) ∧
    exec .bootstrap (ready 0) = .next (performed .bootstrap (ready 0)) :=
  ⟨rfl, rfl, ⟨by decide, by decide, exec_performed _ _⟩, ⟨by decide, by decide, exec_performed _ _⟩,
    ⟨by decide, exec_performed _ _⟩, ⟨by decide, exec_performed _ _⟩, exec_performed _ _⟩

theorem witness_LowestSetBitIsTheLeastIndex : (0x80000000 : Word) ≠ 0 := by decide

/-- A gated and an open position, at the boundary of the gate. -/
theorem witness_GetSrBitAnswersTheBit :
    (ready 0x0110).halted = false ∧ 4 ∈ namedPositions ∧ 8 ∈ namedPositions ∧ ¬ (ready 0x0110).Gate 4 ∧ (ready 0x0110).Gate 8 := by
  decide

theorem witness_SetSrBitWritesTheBit :
    (ready 0).halted = false ∧ 0 ∈ namedPositions ∧ 15 ∈ namedPositions ∧ ¬ (ready 0).Gate 0 ∧ (ready 0).Gate 15 := by decide

theorem witness_OnlyNamedMasksAreAccepted :
    (ready 0).halted = false ∧ (0x8000 : BitVec 16) ∈ namedMasks ∧ (0x0001 : BitVec 16) ∈ namedMasks ∧
      ¬ (0x0020 : BitVec 16) ∈ namedMasks ∧ ¬ (0x0000 : BitVec 16) ∈ namedMasks := by decide

theorem witness_StatusBitRoundTrip :
    (ready 0x2000).halted = false ∧ 15 ∈ namedPositions ∧ ¬ (ready 0x2000).Gate 15 ∧
    (ready 0).halted = false ∧ 4 ∈ namedPositions ∧ ¬ (ready 0).Gate 4 := by decide

theorem witness_GateIsInertBeforeReady :
    State.reset.halted = false ∧ State.reset.life = .uninitialized ∧ 15 ∈ namedPositions := by decide

/-- The last access of each width in the store. -/
theorem witness_MemReadAnswersTheBytes :
    (ready 0).halted = false ∧ AccessAllowed (ready 0).params 0xFFFFFF .byte .read ∧
    AccessAllowed (ready 0).params 0xFFFFFE .word .read ∧ AccessAllowed (ready 0).params 0xFFFFFC .long .read := by decide

theorem witness_MemWriteStoresTheBytes :
    (busy 0 ⟨0, 0, 0⟩).halted = false ∧ Memory.wf (busy 0 ⟨0, 0, 0⟩).mem ∧ Width.ofCode 4 = some .long ∧
    AccessAllowed (busy 0 ⟨0, 0, 0⟩).params 0xFFFFFC .long .write ∧ AccessAllowed (busy 0 ⟨0, 0, 0⟩).params 0 .long .write := by
  decide

/-- One access for each check: bounds, containment, ROM protection. -/
theorem witness_ForbiddenAccessesRaiseBusFaults :
    (ready 0).halted = false ∧ Width.ofCode 2 = some .word ∧ ¬ AccessAllowed (ready 0).params 0xFFFFFF .word .read ∧
    ¬ AccessAllowed { Params.default with strictRegions := true } 0x3FFFFF .word .read ∧
    ¬ AccessAllowed { Params.default with strictRegions := true } 0xFEFFFF .word .write ∧
    ¬ AccessAllowed { Params.default with romWriteProtect := true } 0x3FFFFF .word .write := by decide

theorem witness_InvalidWidthsRaise :
    (ready 0).halted = false ∧ (0 : BitVec 3) ∈ [0#3, 3, 5, 6, 7] ∧ (7 : BitVec 3) ∈ [0#3, 3, 5, 6, 7] ∧
    Width.ofCode 4 = some .long := by decide

theorem witness_MemoryRoundTrip :
    (busy 0 ⟨0, 0, 0⟩).halted = false ∧ Memory.wf (busy 0 ⟨0, 0, 0⟩).mem ∧ Width.ofCode 2 = some .word ∧
    AccessAllowed (busy 0 ⟨0, 0, 0⟩).params 0xFF000F .word .write := by decide

theorem witness_MixedWidthReadsAreBigEndian :
    let s := busy 0 ⟨0, 0, 0⟩
    s.halted = false ∧ Memory.wf s.mem ∧ s.params.strictRegions = false ∧ AccessAllowed s.params 0xFFFFFC .long .write ∧
      exec (.memWrite 4 0xFFFFFC 0x11223344) s = .next (performed (.memWrite 4 0xFFFFFC 0x11223344) s) :=
  ⟨rfl, by decide, rfl, by decide, exec_performed _ _⟩

theorem witness_InitRegionsHasNoEffect :
    (ready 0).halted = false ∧ exec .initRegions (ready 0) = .next (performed .initRegions (ready 0)) := ⟨rfl, exec_performed _ _⟩

theorem witness_CanonicalStoresAreDeterminedByTheirBytes :
    let m := Memory.writeByte [(0xFF0010, 0xAB)] 0xFF0010 0xCD
    let m' := Memory.writeByte [] 0xFF0010 0xCD
    Memory.wf m ∧ Memory.wf m' ∧ ∀ x, Memory.readByte m x = Memory.readByte m' x := ⟨by decide, by decide, fun _ => rfl⟩

/-- A source of each mode and a destination of each direct mode. -/
theorem witness_MoveToRegisterMergesTheValue :
    let s := busy 0x2000 ⟨0, 0, 0⟩
    s.halted = false ∧ Width.ofCode 1 = some .byte ∧ Width.ofCode 4 = some .long ∧
    MoveSource s 4 0 .byte 0x12345678 ∧ MoveSource s 19 1 .byte 0xFFFF00 ∧ MoveSource s 12 2 .long 0xAB000000 ∧
    RegId.ofCode 11 = some .d7 ∧ RegId.ofCode 19 = some .a7 ∧
    ((0 : BitVec 2) = 0 ∧ 4 ≤ BitVec.toNat (11 : BitVec 5) ∧ BitVec.toNat (11 : BitVec 5) ≤ 11) ∧
    ((1 : BitVec 2) = 1 ∧ 12 ≤ BitVec.toNat (19 : BitVec 5)) :=
  ⟨rfl, rfl, rfl, ⟨.d0, rfl, by decide⟩, ⟨.a7, rfl, by decide⟩, ⟨.a0, rfl, by decide⟩, rfl, rfl, by decide, by decide⟩

theorem witness_MoveToMemoryStoresTheValue :
    let s := busy 0x2000 ⟨0, 0, 0⟩
    s.halted = false ∧ Memory.wf s.mem ∧ Width.ofCode 1 = some .byte ∧ MoveSource s 4 0 .byte 0x12345678 ∧
    (0 : BitVec 2) ≠ 2 ∧ RegId.ofCode 13 = some .a1 ∧ 12 ≤ BitVec.toNat (13 : BitVec 5) ∧
    (Width.byte = .long ∨ s.params.indirectWidthRule ≠ .both) ∧ AccessAllowed s.params (s.readReg .a1) .byte .write :=
  ⟨rfl, by decide, rfl, ⟨.d0, rfl, by decide⟩, by decide, rfl, by decide, by decide, by decide⟩

/-- A MOVE that passes every check and one that fails. -/
theorem witness_MoveReportsItsFirstError :
    let s := busy 0x2000 ⟨0, 0, 0⟩
    s.halted = false ∧ firstError (moveCheckList s 13 2 4 0 1) = none ∧
    firstError (moveCheckList s 13 2 12 2 4) = some (.invariant .indirectToIndirect) := by decide

/-- A longword, a byte under INDIRECT_WIDTH_RULE = NONE; the destination's pointer is out of bounds. -/
theorem witness_MemoryToMemoryMoveIsRejected :
    let s := { busy 0x2000 ⟨0, 0, 0⟩ with regs := { (busy 0x2000 ⟨0, 0, 0⟩).regs with a1 := 0xFFFFFFFF } }
    let s' := { s with params := { Params.default with indirectWidthRule := .none } }
    s.halted = false ∧ Width.ofCode 4 = some .long ∧ RegId.ofCode 12 = some .a0 ∧ 12 ≤ BitVec.toNat (12 : BitVec 5) ∧
    12 ≤ BitVec.toNat (13 : BitVec 5) ∧ BitVec.toNat (13 : BitVec 5) < 20 ∧
    AccessAllowed s.params (s.readReg .a0) .long .read ∧
    s'.halted = false ∧ Width.ofCode 1 = some .byte ∧ s'.params.indirectWidthRule = .none ∧
    AccessAllowed s'.params (s'.readReg .a0) .byte .read := by decide

theorem witness_MoveToItselfChangesOnlyFlags :
    (busy 0 ⟨0, 0, 0⟩).halted = false ∧ Width.ofCode 2 = some .word ∧ RegId.ofCode 4 = some .d0 ∧ RegId.ofCode 19 = some .a7 ∧
    4 ≤ BitVec.toNat (4 : BitVec 5) ∧ 12 ≤ BitVec.toNat (19 : BitVec 5) := by decide

theorem witness_MoveIsTheSameInEveryModeAndLifecycle :
    let s := busy 0x2000 ⟨0, 0, 0⟩
    exec (.move 13 2 4 0 1) s = .next (performed (.move 13 2 4 0 1) s) ∧
    (performed (.move 13 2 4 0 1) s).response = okay 0 ∧ (13 : BitVec 5) ≠ 19 ∧ (4 : BitVec 5) ≠ 19 :=
  ⟨exec_performed _ _, by decide, by decide, by decide⟩

theorem witness_BootstrapEntersReadyInSupervisorMode : State.reset.halted = false ∧ (ready 0x8010).halted = false := ⟨rfl, rfl⟩

theorem witness_PowerOnMeetsTheInvariant : Memory.wf [(0, 0x4E), (0xFFFFFF, 0xDD)] := by decide

/-- A state with a record meets the invariant. -/
theorem witness_StepKeepsTheInvariant : haltedState.Inv ∧ step haltedState = .next (stepped haltedState) := by
  refine ⟨⟨by decide, rfl, ?_⟩, step_stepped _⟩
  intro a w dir h
  cases h
  decide

theorem witness_OnlyBootstrapChangesTheLifecycle :
    let s := { State.reset with inbox := [⟨0, 0, 0⟩] }
    step s = .next (stepped s) ∧ (stepped s).life ≠ s.life ∧ step haltedState = .next (stepped haltedState) ∧
      haltedState.life = .ready := ⟨step_stepped _, by decide, step_stepped _, rfl⟩

theorem witness_OnlySetRegChangesThePc :
    let s := busy 0 ⟨0x30000000, 0, 0x201⟩
    s.halted = false ∧ step s = .next (stepped s) ∧ (stepped s).regs.pc ≠ s.regs.pc := ⟨rfl, step_stepped _, by decide⟩

/-- S set and S cleared. -/
theorem witness_ModeChangesOnlyAsListed :
    (let s := busy 0 ⟨0x00000000, 0, 0⟩
     step s = .next (stepped s) ∧ s.regs.sr.getLsbD 13 = false ∧ (stepped s).regs.sr.getLsbD 13 = true) ∧
    (let s := busy 0x2000 ⟨0x50002000, 0, 0⟩
     step s = .next (stepped s) ∧ s.regs.sr.getLsbD 13 = true ∧ (stepped s).regs.sr.getLsbD 13 = false) :=
  ⟨⟨step_stepped _, by decide, by decide⟩, step_stepped _, by decide, by decide⟩

theorem witness_SrBitsChangeOnlyByTheirWriters :
    let s := busy 0 ⟨0x30000001, 0, 0x0800⟩
    11 < 16 ∧ step s = .next (stepped s) ∧ (stepped s).regs.sr.getLsbD 11 ≠ s.regs.sr.getLsbD 11 :=
  ⟨by decide, step_stepped _, by decide⟩

theorem witness_MemoryChangesOnlyWhereACommandStores :
    let s := busy 0 ⟨0x70000001, 0xFF0020, 0xCD⟩
    step s = .next (stepped s) ∧ Memory.readByte (stepped s).mem 0xFF0020 ≠ Memory.readByte s.mem 0xFF0020 :=
  ⟨step_stepped _, by decide⟩

/-- A run of one store, and the byte beside it. -/
theorem witness_BytesKeepTheLastWriteOverEveryRun :
    let s := busy 0 ⟨0x70000001, 0xFF0020, 0xCD⟩
    Host.Core.run Sys2Proof.core 1 s = .next (stepped s) ∧
    ∀ j u i, j < 1 → Host.Core.run Sys2Proof.core j s = .next u → u.Performs i → ¬ u.StoresTo i 0xFF0021 := by
  refine ⟨?_, ?_⟩
  · rw [run_succ 0 _ _ (step_stepped _)]
    exact run_zero _
  · intro j u i hj hr hp
    have h0 : j = 0 := by omega
    subst h0
    cases hr
    obtain ⟨-, p, rest, hi, hd⟩ := hp
    cases hi
    cases hd
    simp only [State.StoresTo]
    decide

/-- User mode, Ready, both gates closed. -/
def confined (sr : BitVec 16) (p : Packet) : State :=
  { busy sr p with params := { Params.default with srPortGated := true } }

theorem witness_ConfinedUserModeKeepsTheUpperBits :
    let s := confined 0x0700 ⟨0x30000001, 0, 0x2715⟩
    s.Confined ∧ ¬ s.Performs .bootstrap ∧ step s = .next (stepped s) := by
  refine ⟨⟨rfl, rfl, rfl, by decide⟩, ?_, step_stepped _⟩
  rintro ⟨-, p, rest, hi, hd⟩
  cases hi
  exact absurd hd (by decide)

theorem witness_ConfinedUserModeLearnsNoUpperBit :
    let s := confined 0x0710 ⟨0x20000001, 0, 0⟩
    let s' := confined 0x8010 ⟨0x20000001, 0, 0⟩
    s.Confined ∧ s'.Confined ∧ s.AgreeBelowGate s' ∧ step s = .next (stepped s) ∧ step s' = .next (stepped s') :=
  ⟨⟨rfl, rfl, rfl, by decide⟩, ⟨rfl, rfl, rfl, by decide⟩, ⟨by decide, by decide⟩, step_stepped _, step_stepped _⟩

/-- A MOVE whose destination is A7 itself, in both modes. -/
theorem witness_NoCommandIsPrivileged :
    let i := Instr.move 19 1 4 0 1
    let s := busy 0x2000 ⟨0, 0, 0⟩
    let s' := s.withSr (s.regs.sr ^^^ 0x2000)
    (∀ dreg dmode sreg smode c, i = .move dreg dmode sreg smode c → ¬ (smode = 2 ∧ sreg = 19) ∧ ¬ (dmode = 2 ∧ dreg = 19)) ∧
    exec i s = .next (performed i s) ∧ exec i s' = .next (performed i s') ∧
    (performed i s).response = okay 0 ∧ (performed i s').response = okay 0 := by
  refine ⟨?_, exec_performed _ _, exec_performed _ _, by decide, by decide⟩
  intro dreg dmode sreg smode c h
  cases h
  decide

/-- A well-formed command that raises INDIRECT_WIDTH, and an ill-formed one. -/
theorem witness_WellFormedCommandsRaiseNoFieldError :
    (ready 0).halted = false ∧
    (Instr.move 4 0 12 2 2).wellFormed = true ∧
    exec (.move 4 0 12 2 2) (ready 0) = .next (performed (.move 4 0 12 2 2) (ready 0)) ∧
    (performed (.move 4 0 12 2 2) (ready 0)).response = inv 6 ∧
    (Instr.getReg 20).wellFormed = false ∧ exec (.getReg 20) (ready 0) = .next (performed (.getReg 20) (ready 0)) ∧
    (performed (.getReg 20) (ready 0)).response = inv 2 :=
  ⟨rfl, by decide, exec_performed _ _, by decide, by decide, exec_performed _ _, by decide⟩

theorem witness_FrameOfTheReadingCommands :
    exec .initRegions (ready 0) = .next (performed .initRegions (ready 0)) ∧
    exec (.getReg 1) (ready 0) = .next (performed (.getReg 1) (ready 0)) ∧
    exec (.getSrBit 1) (ready 0) = .next (performed (.getSrBit 1) (ready 0)) ∧
    exec (.memRead 4 0) (ready 0) = .next (performed (.memRead 4 0) (ready 0)) ∧
    (performed (.memRead 4 0) (ready 0)).response = okay 0 :=
  ⟨exec_performed _ _, exec_performed _ _, exec_performed _ _, exec_performed _ _, by decide⟩

theorem witness_FrameOfTheRegisterWritingCommands :
    RegId.ofCode 19 = some .a7 ∧ registerCell .a7 ((ready 0).regs.sr.getLsbD 13) = .usp ∧
    registerCell .a7 ((ready 0x2000).regs.sr.getLsbD 13) = .ssp ∧
    exec (.setReg 19 5) (ready 0) = .next (performed (.setReg 19 5) (ready 0)) ∧
    exec (.setSrBit true 1) (ready 0) = .next (performed (.setSrBit true 1) (ready 0)) ∧
    exec .bootstrap (ready 0) = .next (performed .bootstrap (ready 0)) ∧
    (performed (.setReg 19 5) (ready 0)).response = okay 0 :=
  ⟨rfl, by decide, by decide, exec_performed _ _, exec_performed _ _, exec_performed _ _, by decide⟩

theorem witness_FrameOfMemWrite :
    exec (.memWrite 2 0xFFFFFE 5) (ready 0) = .next (performed (.memWrite 2 0xFFFFFE 5) (ready 0)) ∧
    (performed (.memWrite 2 0xFFFFFE 5) (ready 0)).response = okay 0 := ⟨exec_performed _ _, by decide⟩

/-- A direct and an indirect destination. -/
theorem witness_FrameOfMove :
    let s := busy 0x2000 ⟨0, 0, 0⟩
    exec (.move 19 1 4 0 1) s = .next (performed (.move 19 1 4 0 1) s) ∧ RegId.ofCode 19 = some .a7 ∧
    (performed (.move 19 1 4 0 1) s).response = okay 0 ∧
    exec (.move 13 2 4 0 1) s = .next (performed (.move 13 2 4 0 1) s) ∧ RegId.ofCode 13 = some .a1 ∧
    (performed (.move 13 2 4 0 1) s).response = okay 0 :=
  ⟨exec_performed _ _, rfl, by decide, exec_performed _ _, rfl, by decide⟩

end Sys2Proof.Tests
end

section
/-! PROOFS. The statements of spec/00_scope.md: the step and the command port (R6), the lowest-set-bit unit (R12), the
single-bit update of SR (R13). -/

namespace Sys2Proof.Proofs

open Sys2Proof Sys2Proof.Machine

/-! ### One step -/

/-- With no packet on the command port the step answers the state it began in (log 5). -/
theorem step_of_inbox_nil (s : State) (h : s.inbox = []) : step s = .next s := by
  simp [step, State.accept, h]

/-- With a packet on the port that decodes to a command, the step takes the packet and performs the command (R99). -/
theorem step_of_decode_ok (s : State) (p : Packet) (rest : List Packet) (i : Instr) (h : s.inbox = p :: rest)
    (hd : decode p = .ok i) : step s = exec i { s with inbox := rest } := by
  simp [step, State.accept, h, hd]

/-- Settles O7: the step takes the packet and performs what it decodes to. -/
theorem stepPerformsTheDecodedCommand : Obligations.StepPerformsTheDecodedCommand := by
  unfold Obligations.StepPerformsTheDecodedCommand
  exact step_of_decode_ok

/-- Settles O8: there is no packet to take. -/
theorem stepWithoutCommandChangesNothing : Obligations.StepWithoutCommandChangesNothing := by
  unfold Obligations.StepWithoutCommandChangesNothing
  exact step_of_inbox_nil

/-! ### The lowest set bit -/

/-- The lowest-set-bit unit answers `i` just where `i` is the least index of a 1 bit (R12). -/
theorem lsb_eq_some_iff (x : Word) (i : Nat) :
    lsb x = some i ↔ i < 32 ∧ x.getLsbD i = true ∧ ∀ j, j < i → x.getLsbD j = false := by
  simp only [lsb, List.find?_range_eq_some, List.mem_range, Bool.not_eq_true']
  tauto

/-- The lowest-set-bit unit has no answer at 0 only (R12, log 7). -/
theorem lsb_eq_none_iff (x : Word) : lsb x = none ↔ x = 0 := by
  simp only [lsb, List.find?_eq_none, List.mem_range, Bool.not_eq_true]
  constructor
  · intro h
    exact BitVec.eq_of_getLsbD_eq fun j hj => by simp [h j hj]
  · rintro rfl j -
    simp

/-- The position the status-bit check answers is the lowest-set-bit index of the mask (R32). -/
theorem lsb_of_statusBitPos_ok (mask : BitVec 16) (pos : Nat) (h : statusBitPos mask = .ok pos) :
    lsb (mask.setWidth 32) = some pos := by
  unfold statusBitPos at h
  split at h
  · split at h
    · next p hp => cases h; exact hp
    · cases h
  · cases h

/-- Settles O19: a nonzero word has an answer, which is the least index of a 1 bit; a named mask's is its position. -/
theorem lowestSetBitIsTheLeastIndex : Obligations.LowestSetBitIsTheLeastIndex := by
  unfold Obligations.LowestSetBitIsTheLeastIndex
  constructor
  · intro x hx
    obtain ⟨i, hi⟩ := Option.ne_none_iff_exists'.mp (mt (lsb_eq_none_iff x).mp hx)
    exact ⟨i, hi, (lsb_eq_some_iff x i).mp hi⟩
  · intro pos hpos
    exact lsb_of_statusBitPos_ok _ _ (statusBitPos_of_named pos hpos)

/-! ### The status-bit write -/

/-- The SR after a status-bit write at a position: as it was where the position is gated, else with that bit written (R34). -/
def srAfterBitWrite (s : State) (pos : Nat) (b : Bool) : BitVec 16 :=
  if s.Gate pos then s.regs.sr else srSet s.regs.sr pos b

/-- Where the gate is active the write leaves SR (R34). -/
theorem srAfterBitWrite_of_gate (s : State) (pos : Nat) (b : Bool) (h : s.Gate pos) :
    srAfterBitWrite s pos b = s.regs.sr := if_pos h

/-- Where the gate is not active the write sets the bit and leaves the others (R13, R34). -/
theorem getLsbD_srAfterBitWrite (s : State) (pos : Nat) (b : Bool) (j : Nat) (h : ¬ s.Gate pos) (hp : pos < 32) (hj : j < 16) :
    (srAfterBitWrite s pos b).getLsbD j = if j = pos then b else s.regs.sr.getLsbD j := by
  rw [srAfterBitWrite, if_neg h, getLsbD_srSet _ _ _ _ hp hj]

/-- Writing the SR that is there changes nothing. -/
@[simp] theorem withSr_self (s : State) : s.withSr s.regs.sr = s := rfl

/-- The status-bit write at a named mask answers the state with that SR (R34). -/
theorem srBitSet_of_named (s : State) (pos : Nat) (b : Bool) (h : pos ∈ namedPositions) :
    s.srBitSet (1#16 <<< pos) b = .ok (s.withSr (srAfterBitWrite s pos b)) := by
  rw [State.srBitSet, statusBitPos_of_named pos h, ok_bind, pure_eq_ok, gated_eq, srAfterBitWrite]
  by_cases hg : s.Gate pos
  · rw [if_pos hg, if_pos (decide_eq_true hg), withSr_self]
  · rw [if_neg hg, if_neg (by simpa using hg)]

/-- SET_SR_BIT of a named mask completes with the status-bit write (R123). -/
theorem exec_setSrBit_of_named (s : State) (pos : Nat) (b : Bool) (hh : s.halted = false) (h : pos ∈ namedPositions) :
    exec (.setSrBit b (1#16 <<< pos)) s = .next ((s.withSr (srAfterBitWrite s pos b)).respond (.ok 0)) := by
  rw [exec_setSrBit]
  refine perform_ok _ s _ 0 hh ?_
  rw [srBitSet_of_named s pos b h, Except.bind]

/-- Every named position is a bit of SR (R30). -/
theorem lt_of_mem_namedPositions : ∀ pos ∈ namedPositions, pos < 16 := by decide

/-- Settles O21: the command completes with the status-bit write, which respects the gate. -/
theorem setSrBitWritesTheBit : Obligations.SetSrBitWritesTheBit := by
  unfold Obligations.SetSrBitWritesTheBit
  intro s pos b hhalted hpos
  have hlt : pos < 32 := (lt_of_mem_namedPositions pos hpos).trans (by decide)
  exact ⟨srAfterBitWrite s pos b, exec_setSrBit_of_named s pos b hhalted hpos, srAfterBitWrite_of_gate s pos b,
    fun hopen j hj => getLsbD_srAfterBitWrite s pos b j hopen hlt hj⟩

end Sys2Proof.Proofs
end

section
/-! PROOFS. The rules of the state's operations that the statements of spec/10_state.md cite: register codes, the register
ports, the bits of SR after each of its writers, the status-bit read, and what a step that completes a command leaves alone. -/

namespace Sys2Proof.Proofs

open Sys2Proof Sys2Proof.Machine

/-! ### Register codes -/

/-- No two codes name one register (R89). -/
theorem ofCode_inj (c c' : BitVec 5) (r : RegId) (h : RegId.ofCode c = some r) (h' : RegId.ofCode c' = some r) : c = c' := by
  have key : ∀ c c' : BitVec 5, (RegId.ofCode c).isSome = true → RegId.ofCode c = RegId.ofCode c' → c = c' := by decide
  exact key c c' (by rw [h]; rfl) (h.trans h'.symm)

/-! ### The register ports -/

/-- The SR read through the register port (R24, R38). -/
theorem readReg_sr (s : State) :
    s.readReg .sr =
      if s.params.srPortGated = true ∧ s.Gate 5 then (s.regs.sr &&& 0x001F).setWidth 32 else s.regs.sr.setWidth 32 :=
  if_congr (srPortClosed_iff s) rfl rfl

/-- A7 reads as the stack pointer of the mode (R26). -/
theorem readReg_a7 (s : State) : s.readReg .a7 = if s.regs.sr.getLsbD 13 then s.regs.ssp else s.regs.usp := by
  rw [readReg_of_ne_sr s .a7 (by decide)]
  show Regs.get (if s.regs.sr.getLsbD 13 then .ssp else .usp) s.regs = _
  split <;> rfl

/-- The SR that a write through the register port leaves (R25, R38). -/
def srAfterPortWrite (s : State) (v : Word) : BitVec 16 :=
  if s.params.srPortGated = true ∧ s.Gate 5 then (s.regs.sr &&& 0xFFE0) ||| (v.setWidth 16 &&& 0x001F) else v.setWidth 16

/-- A write of SR through the register port writes that SR (R25, R38). -/
theorem writeReg_sr (s : State) (v : Word) : s.writeReg .sr v = s.withSr (srAfterPortWrite s v) := by
  show (if s.srPortClosed = true then _ else _) = _
  rw [srAfterPortWrite, apply_ite s.withSr]
  exact if_congr (srPortClosed_iff s) rfl rfl

/-- A7 is written as the stack pointer of the mode (R26). -/
theorem writeReg_a7 (s : State) (v : Word) :
    s.writeReg .a7 v =
      s.withRegs (if s.regs.sr.getLsbD 13 then { s.regs with ssp := v } else { s.regs with usp := v }) := by
  rw [writeReg_of_ne_sr s .a7 v (by decide)]
  show s.withRegs (Regs.set (if s.regs.sr.getLsbD 13 then .ssp else .usp) v s.regs) = _
  split <;> rfl

/-- A register other than SR reads as what was just written to it (R24, R25). -/
theorem readReg_writeReg_same (s : State) (r : RegId) (v : Word) (h : r ≠ .sr) : (s.writeReg r v).readReg r = v := by
  have hcell (b : Bool) : registerCell r b ≠ .sr := fun hc => h ((registerCell_eq_sr r b).mp hc)
  have hmode : (s.writeReg r v).supervisor = s.supervisor := by
    rw [State.supervisor, writeReg_sr_of_ne s r v h, State.supervisor]
  rw [readReg_of_ne_sr _ r h, hmode, writeReg_of_ne_sr s r v h, withRegs_regs, get_set_same _ _ _ (hcell _)]

/-- Through an open port the bits of SR become those of the value (R25). -/
theorem getLsbD_srAfterPortWrite_open (s : State) (v : Word) (j : Nat) (h : ¬ (s.params.srPortGated = true ∧ s.Gate 5))
    (hj : j < 16) : (srAfterPortWrite s v).getLsbD j = v.getLsbD j := by
  rw [srAfterPortWrite, if_neg h, BitVec.getLsbD_setWidth, decide_eq_true hj, Bool.true_and]

/-- Through a closed port only the bits up to EXTEND become those of the value (R38). -/
theorem getLsbD_srAfterPortWrite_closed (s : State) (v : Word) (j : Nat) (h : s.params.srPortGated = true ∧ s.Gate 5)
    (hj : j < 16) : (srAfterPortWrite s v).getLsbD j = if j < 5 then v.getLsbD j else s.regs.sr.getLsbD j := by
  have hmask : ∀ j < 16, BitVec.getLsbD (0xFFE0 : BitVec 16) j = decide (5 ≤ j) ∧
      BitVec.getLsbD (0x001F : BitVec 16) j = decide (j < 5) := by decide
  rw [srAfterPortWrite, if_pos h, BitVec.getLsbD_or, BitVec.getLsbD_and, BitVec.getLsbD_and, BitVec.getLsbD_setWidth,
    (hmask j hj).1, (hmask j hj).2]
  by_cases h5 : j < 5
  · simp [h5, hj, Nat.not_le.mpr h5]
  · simp [h5, Nat.not_lt.mp h5]

/-! ### The register and status-bit commands -/

/-- GET_REG of a named register answers the read port (R120). -/
theorem exec_getReg_of_named (s : State) (c : BitVec 5) (r : RegId) (hh : s.halted = false) (hc : RegId.ofCode c = some r) :
    exec (.getReg c) s = .next (s.respond (.ok (s.readReg r))) := by
  rw [exec_getReg]
  refine perform_ok _ s s _ hh ?_
  rw [checkRegister_of_some c r hc, Except.bind]

/-- SET_REG of a named register completes with the write port (R121). -/
theorem exec_setReg_of_named (s : State) (c : BitVec 5) (r : RegId) (v : Word) (hh : s.halted = false)
    (hc : RegId.ofCode c = some r) : exec (.setReg c v) s = .next ((s.writeReg r v).respond (.ok 0)) := by
  rw [exec_setReg]
  refine perform_ok _ s _ 0 hh ?_
  rw [checkRegister_of_some c r hc, Except.bind]

/-- The status-bit read at a named mask: 0 where the position is gated, else the bit (R33). -/
theorem srBitGet_of_named (s : State) (pos : Nat) (h : pos ∈ namedPositions) :
    s.srBitGet (1#16 <<< pos) = .ok (if s.Gate pos then false else s.regs.sr.getLsbD pos) := by
  rw [State.srBitGet, statusBitPos_of_named pos h, ok_bind, pure_eq_ok]
  exact congrArg _ (if_congr (gated_iff s pos) rfl rfl)

/-- A bit as a datum. -/
theorem setWidth_ofBool (b : Bool) : (BitVec.ofBool b).setWidth 32 = if b then (1 : Word) else 0 := by
  cases b <;> rfl

/-- GET_SR_BIT of a named mask completes with the status-bit read (R122). -/
theorem exec_getSrBit_of_named (s : State) (pos : Nat) (hh : s.halted = false) (h : pos ∈ namedPositions) :
    exec (.getSrBit (1#16 <<< pos)) s =
      .next (s.respond (.ok (if s.Gate pos then 0 else if s.regs.sr.getLsbD pos then 1 else 0))) := by
  rw [exec_getSrBit]
  refine perform_ok _ s s _ hh ?_
  rw [srBitGet_of_named s pos h, Except.bind, setWidth_ofBool]
  by_cases hg : s.Gate pos
  · rw [if_pos hg, if_pos hg]; rfl
  · rw [if_neg hg, if_neg hg]

/-- BOOTSTRAP completes with S set and the block Ready (R175). -/
theorem exec_bootstrap_eq (s : State) (hh : s.halted = false) :
    exec .bootstrap s = .next (((s.withSr (srSet s.regs.sr 13 true)).withLife .ready).respond (.ok 0)) := by
  rw [exec_bootstrap]
  exact perform_ok _ s _ 0 hh rfl

/-- INIT_REGIONS completes with no change (R132). -/
theorem exec_initRegions_eq (s : State) (hh : s.halted = false) : exec .initRegions s = .next (s.respond (.ok 0)) := by
  rw [exec_initRegions]
  exact perform_ok _ s _ 0 hh rfl

/-! ### What a completed command leaves alone -/

/-- Only BOOTSTRAP changes the lifecycle (R29). -/
theorem effect_life (i : Instr) (s u : State) (d : Word) (h : Effect i s u d) (hi : i ≠ .bootstrap) : u.life = s.life := by
  cases i with
  | bootstrap => exact absurd rfl hi
  | initRegions => obtain ⟨rfl, -⟩ := h; rfl
  | getReg reg => obtain ⟨_, _, rfl, -⟩ := h; rfl
  | setReg reg data => obtain ⟨_, _, rfl, -⟩ := h; simp
  | getSrBit mask => obtain ⟨_, _, rfl, -⟩ := h; rfl
  | setSrBit bit mask => obtain ⟨_, _, rfl, -⟩ := h; split <;> rfl
  | memRead width addr => obtain ⟨_, _, _, rfl⟩ := h; rfl
  | memWrite width addr data => obtain ⟨_, _, _, _, rfl, -⟩ := h; rfl
  | move dreg dmode sreg smode width =>
    obtain ⟨_, _, _, _, -, -, -, -, -, ⟨-, -, rfl⟩ | ⟨-, -, -, rfl⟩⟩ := move_effect_cases _ _ _ _ _ _ _ _ h <;> simp

/-- A command that completes changes PC only if it is SET_REG PC, which stores the value as it is (R27). -/
theorem effect_pc (i : Instr) (s u : State) (d : Word) (h : Effect i s u d) :
    u.regs.pc = s.regs.pc ∨ ∃ v, i = .setReg 0 v ∧ u.regs.pc = v := by
  cases i with
  | bootstrap => obtain ⟨rfl, -⟩ := h; exact .inl rfl
  | initRegions => obtain ⟨rfl, -⟩ := h; exact .inl rfl
  | getReg reg => obtain ⟨_, _, rfl, -⟩ := h; exact .inl rfl
  | setReg reg data =>
    obtain ⟨r, hr, rfl, -⟩ := h
    by_cases hpc : r = .pc
    · subst hpc
      exact .inr ⟨data, by rw [ofCode_inj reg 0 .pc hr rfl], rfl⟩
    · exact .inl (writeReg_pc_of_ne s r data hpc)
  | getSrBit mask => obtain ⟨_, _, rfl, -⟩ := h; exact .inl rfl
  | setSrBit bit mask => obtain ⟨_, _, rfl, -⟩ := h; left; split <;> rfl
  | memRead width addr => obtain ⟨_, _, _, rfl⟩ := h; exact .inl rfl
  | memWrite width addr data => obtain ⟨_, _, _, _, rfl, -⟩ := h; exact .inl rfl
  | move dreg dmode sreg smode width =>
    left
    obtain ⟨_, _, _, _, -, -, -, hpc, -, ⟨-, -, rfl⟩ | ⟨-, -, -, rfl⟩⟩ := move_effect_cases _ _ _ _ _ _ _ _ h
    · exact writeReg_pc_of_ne s _ _ hpc
    · rfl

/-- The commands that write SR, each with the SR it leaves (R35, R37). -/
inductive SrWrite (s : State) : Instr → BitVec 16 → Prop
  | setReg (v : Word) : SrWrite s (.setReg 1 v) (srAfterPortWrite s v)
  | setSrBit (b : Bool) (pos : Nat) (named : pos ∈ namedPositions) :
    SrWrite s (.setSrBit b (1#16 <<< pos)) (srAfterBitWrite s pos b)
  | bootstrap : SrWrite s .bootstrap (srSet s.regs.sr 13 true)
  | move (dreg : BitVec 5) (dmode : BitVec 2) (sreg : BitVec 5) (smode : BitVec 2) (c : BitVec 3) (r : Word) (w : Width) :
    SrWrite s (.move dreg dmode sreg smode c) (moveFlags s.params r w s.regs.sr)

/-- A command that completes leaves SR, or is one of its writers. -/
theorem effect_sr (i : Instr) (s u : State) (d : Word) (h : Effect i s u d) :
    u.regs.sr = s.regs.sr ∨ SrWrite s i u.regs.sr := by
  cases i with
  | bootstrap => obtain ⟨rfl, -⟩ := h; exact .inr .bootstrap
  | initRegions => obtain ⟨rfl, -⟩ := h; exact .inl rfl
  | getReg reg => obtain ⟨_, _, rfl, -⟩ := h; exact .inl rfl
  | setReg reg data =>
    obtain ⟨r, hr, rfl, -⟩ := h
    by_cases hsr : r = .sr
    · subst hsr
      rw [ofCode_inj reg 1 .sr hr rfl, writeReg_sr]
      exact .inr (.setReg data)
    · exact .inl (writeReg_sr_of_ne s r data hsr)
  | getSrBit mask => obtain ⟨_, _, rfl, -⟩ := h; exact .inl rfl
  | setSrBit bit mask =>
    obtain ⟨pos, hp, rfl, -⟩ := h
    obtain ⟨hnamed, rfl⟩ := statusBitPos_ok mask pos hp
    have hu : (if s.gated pos = true then s else s.withSr (srSet s.regs.sr pos bit)).regs.sr = srAfterBitWrite s pos bit := by
      rw [apply_ite (fun t : State => t.regs.sr)]
      exact if_congr (gated_iff s pos) rfl rfl
    rw [hu]
    exact .inr (.setSrBit bit pos hnamed)
  | memRead width addr => obtain ⟨_, _, _, rfl⟩ := h; exact .inl rfl
  | memWrite width addr data => obtain ⟨_, _, _, _, rfl, -⟩ := h; exact .inl rfl
  | move dreg dmode sreg smode width =>
    right
    obtain ⟨w, _, _, r, -, -, -, -, -, ⟨-, -, rfl⟩ | ⟨-, -, -, rfl⟩⟩ := move_effect_cases _ _ _ _ _ _ _ _ h <;>
      exact .move _ _ _ _ _ r w

/-- What a step can do to the register file and the lifecycle: nothing, or what the command it performs does on completing. -/
theorem step_regs_cases (s t : State) (h : step s = .next t) :
    t.params = s.params ∧
    ((t.regs = s.regs ∧ t.life = s.life) ∨
     ∃ i rest u d, s.Performs i ∧ Effect i { s with inbox := rest } u d ∧ t.regs = u.regs ∧ t.life = u.life) := by
  obtain ⟨-, rfl⟩ | ⟨p, rest, s', -, rfl, hcase⟩ := step_effect_cases s t h
  · exact ⟨rfl, .inl ⟨rfl, rfl⟩⟩
  obtain ⟨-, rfl⟩ | ⟨-, e, -, rfl⟩ | ⟨-, i, u, d, hi, hu, rfl⟩ := hcase
  · exact ⟨rfl, .inl ⟨rfl, rfl⟩⟩
  · exact ⟨raise_params _ e, .inl ⟨raise_regs _ e, raise_life _ e⟩⟩
  · exact ⟨(effect_keeps i _ u d hu).1, .inr ⟨i, rest, u, d, hi, hu, rfl, rfl⟩⟩

/-- What a step can do to SR: nothing, or what the writer it performs does. -/
theorem step_sr_cases (s t : State) (h : step s = .next t) :
    t.regs.sr = s.regs.sr ∨ ∃ i, s.Performs i ∧ SrWrite s i t.regs.sr := by
  obtain ⟨-, ⟨hr, -⟩ | ⟨i, rest, u, d, hi, hu, hr, -⟩⟩ := step_regs_cases s t h
  · exact .inl (by rw [hr])
  · rw [hr]
    obtain hsr | hw := effect_sr i _ u d hu
    · exact .inl hsr
    · refine .inr ⟨i, hi, ?_⟩
      generalize u.regs.sr = sr at hw
      cases hw with
      | setReg v => exact .setReg v
      | setSrBit b pos hp => exact .setSrBit b pos hp
      | bootstrap => exact .bootstrap
      | move dreg dmode sreg smode c r w => exact .move dreg dmode sreg smode c r w

end Sys2Proof.Proofs
end

section
/-! PROOFS. The statements of spec/10_state.md about every step: the invariant (R28, R39), the mode and the bits of SR (R31,
R35, R192), PC (R27), and the halted block (R185). -/

namespace Sys2Proof.Proofs

open Sys2Proof Sys2Proof.Machine

/-! ### The invariant -/

/-- The invariant speaks of the store, the latch, the record and the parameters only. -/
theorem inv_congr (s t : State) (h : s.Inv) (hm : t.mem = s.mem) (hh : t.halted = s.halted) (hf : t.fault = s.fault)
    (hp : t.params = s.params) : t.Inv :=
  ⟨hm ▸ h.memory, by rw [hh, hf]; exact h.latch, by rw [hf, hp]; exact h.record⟩

/-- Taking an error that is due keeps the invariant (R28, R184). -/
theorem raise_inv (s : State) (e : Error) (h : s.Inv) (he : Error.Due s e) : (s.raise e).Inv := by
  obtain ⟨hr, hl⟩ | ⟨hr, -, -⟩ := raise_cases s e
  · rw [hr]
    refine ⟨h.memory, rfl, fun a w dir hf => ?_⟩
    have hbus : e = .busFault a w dir := Option.some.inj hf
    exact ⟨he a w dir hbus, hl.resolve_left (by rw [hbus]; exact Bool.noConfusion)⟩
  · rw [hr]
    exact inv_congr s _ h rfl rfl rfl rfl

/-- A command that completes keeps the invariant. -/
theorem effect_inv (i : Instr) (s u : State) (d : Word) (h : s.Inv) (hu : Effect i s u d) : u.Inv := by
  obtain ⟨hp, hh, hf, -, hm⟩ := effect_keeps i s u d hu
  exact ⟨hm h.memory, by rw [hh, hf]; exact h.latch, by rw [hf, hp]; exact h.record⟩

/-- Settles O43: neither an idle step, an answer, an error that is due nor a completed command breaks the invariant. -/
theorem stepKeepsTheInvariant : Obligations.StepKeepsTheInvariant := by
  unfold Obligations.StepKeepsTheInvariant
  intro s t h hs
  obtain ⟨-, rfl⟩ | ⟨p, rest, s', -, rfl, hcase⟩ := step_effect_cases s t hs
  · exact h
  · have h' : State.Inv { s with inbox := rest } := inv_congr s _ h rfl rfl rfl rfl
    obtain ⟨-, rfl⟩ | ⟨-, e, he, rfl⟩ | ⟨-, i, u, d, -, hu, rfl⟩ := hcase
    · exact inv_congr _ _ h' rfl rfl rfl rfl
    · exact raise_inv _ e h' he
    · exact inv_congr u _ (effect_inv i _ u d h' hu) rfl rfl rfl rfl

/-- Settles O41: at power-on the latch is clear and there is no record. -/
theorem powerOnMeetsTheInvariant : Obligations.PowerOnMeetsTheInvariant := by
  unfold Obligations.PowerOnMeetsTheInvariant
  intro p r m hm
  exact ⟨hm, rfl, fun _ _ _ hf => nomatch hf⟩

/-- Settles O42: reset is a power-on with the empty store. -/
theorem resetMeetsTheInvariant : Obligations.ResetMeetsTheInvariant := by
  unfold Obligations.ResetMeetsTheInvariant
  exact powerOnMeetsTheInvariant _ _ [] ⟨.nil, fun _ hc => nomatch hc⟩

/-! ### The bits of SR -/

/-- A status-bit write changes a bit only where it is the one selected and not gated (R34). -/
theorem eq_pos_of_srAfterBitWrite_ne (s : State) (pos j : Nat) (b : Bool) (hp : pos ∈ namedPositions) (hj : j < 16)
    (h : (srAfterBitWrite s pos b).getLsbD j ≠ s.regs.sr.getLsbD j) :
    j = pos ∧ ¬ s.Gate pos ∧ (srAfterBitWrite s pos b).getLsbD j = b := by
  have hopen : ¬ s.Gate pos := fun hg => h (by rw [srAfterBitWrite_of_gate s pos b hg])
  have hlt : pos < 32 := (lt_of_mem_namedPositions pos hp).trans (by decide)
  rw [getLsbD_srAfterBitWrite s pos b j hopen hlt hj] at h ⊢
  by_cases hjp : j = pos
  · exact ⟨hjp, hopen, if_pos hjp⟩
  · exact absurd (if_neg hjp) h

/-- BOOTSTRAP changes no bit but S (R175). -/
theorem getLsbD_bootstrap (s : State) (j : Nat) (hj : j < 16) :
    (srSet s.regs.sr 13 true).getLsbD j = if j = 13 then true else s.regs.sr.getLsbD j :=
  getLsbD_srSet _ _ _ _ (by decide) hj

/-- MOVE changes no bit above N (R160). -/
theorem getLsbD_moveFlags_of_gt (p : Params) (r : Word) (w : Width) (sr : BitVec 16) (j : Nat) (h : 3 < j) (hj : j < 16) :
    (moveFlags p r w sr).getLsbD j = sr.getLsbD j := by
  rw [getLsbD_moveFlags p r w sr j hj, if_neg (by omega), if_neg (by omega), if_neg (by omega), if_neg (by omega)]

/-- Settles O47: a changed bit is one that the writer performed may change. -/
theorem srBitsChangeOnlyByTheirWriters : Obligations.SrBitsChangeOnlyByTheirWriters := by
  unfold Obligations.SrBitsChangeOnlyByTheirWriters
  intro s t j hj hs hne
  obtain hsr | ⟨i, hi, hw⟩ := step_sr_cases s t hs
  · exact absurd (by rw [hsr]) hne
  · generalize t.regs.sr = sr at hne hw
    cases hw with
    | setReg v => exact .inl ⟨v, hi⟩
    | setSrBit b pos hp =>
      obtain ⟨rfl, hopen, -⟩ := eq_pos_of_srAfterBitWrite_ne s pos j b hp hj hne
      exact .inr (.inl ⟨b, hp, hi, hopen⟩)
    | bootstrap =>
      refine .inr (.inr (.inl ⟨?_, hi⟩))
      by_contra h13
      exact hne (by rw [getLsbD_bootstrap s j hj, if_neg h13])
    | move dreg dmode sreg smode c r w =>
      refine .inr (.inr (.inr ⟨?_, dreg, dmode, sreg, smode, c, hi⟩))
      by_contra h3
      exact hne (getLsbD_moveFlags_of_gt _ r w _ j (by omega) hj)

/-- The writers that set S: BOOTSTRAP, SET_REG SR through an open port, and SET_SR_BIT S where it is not gated (R192). -/
theorem srWrite_sets_mode (s : State) (i : Instr) (sr : BitVec 16) (hw : SrWrite s i sr)
    (h : s.regs.sr.getLsbD 13 = false) (h' : sr.getLsbD 13 = true) :
    i = .bootstrap ∨
    (∃ v : Word, i = .setReg 1 v ∧ v.getLsbD 13 = true ∧ ¬ (s.params.srPortGated = true ∧ s.Gate 5)) ∨
    (i = .setSrBit true 0x2000 ∧ ¬ s.Gate 13) := by
  cases hw with
  | setReg v =>
    by_cases hclosed : s.params.srPortGated = true ∧ s.Gate 5
    · rw [getLsbD_srAfterPortWrite_closed s v 13 hclosed (by decide), if_neg (by decide)] at h'
      exact nomatch h.symm.trans h'
    · rw [getLsbD_srAfterPortWrite_open s v 13 hclosed (by decide)] at h'
      exact .inr (.inl ⟨v, rfl, h', hclosed⟩)
  | setSrBit b pos hp =>
    obtain ⟨rfl, hopen, hb⟩ := eq_pos_of_srAfterBitWrite_ne s pos 13 b hp (by decide) (by rw [h, h']; decide)
    obtain rfl : true = b := h'.symm.trans hb
    exact .inr (.inr ⟨rfl, hopen⟩)
  | bootstrap => exact .inl rfl
  | move dreg dmode sreg smode c r w =>
    rw [getLsbD_moveFlags_of_gt _ r w _ 13 (by decide) (by decide)] at h'
    exact nomatch h.symm.trans h'

/-- The writers that clear S: SET_SR_BIT S and SET_REG SR (R192). -/
theorem srWrite_clears_mode (s : State) (i : Instr) (sr : BitVec 16) (hw : SrWrite s i sr)
    (h : s.regs.sr.getLsbD 13 = true) (h' : sr.getLsbD 13 = false) :
    i = .setSrBit false 0x2000 ∨ ∃ v : Word, i = .setReg 1 v ∧ v.getLsbD 13 = false := by
  cases hw with
  | setReg v =>
    have hopen : ¬ (s.params.srPortGated = true ∧ s.Gate 5) := fun hclosed => by
      obtain ⟨-, -, -, hmode, -⟩ := hclosed
      exact nomatch h.symm.trans hmode
    exact .inr ⟨v, rfl, (getLsbD_srAfterPortWrite_open s v 13 hopen (by decide)).symm.trans h'⟩
  | setSrBit b pos hp =>
    obtain ⟨rfl, -, hb⟩ := eq_pos_of_srAfterBitWrite_ne s pos 13 b hp (by decide) (by rw [h, h']; decide)
    obtain rfl : false = b := h'.symm.trans hb
    exact .inl rfl
  | bootstrap => exact nomatch (getLsbD_bootstrap s 13 (by decide)).symm.trans h'
  | move dreg dmode sreg smode c r w =>
    rw [getLsbD_moveFlags_of_gt _ r w _ 13 (by decide) (by decide)] at h'
    exact nomatch h.symm.trans h'

/-- In user mode S is not gated only before Ready or with the gate disabled (R31). -/
theorem gate_inert_of_open (s : State) (h : s.regs.sr.getLsbD 13 = false) (hopen : ¬ s.Gate 13) :
    s.life = .uninitialized ∨ s.params.privGateEnabled = false := by
  cases hlife : s.life with
  | uninitialized => exact .inl rfl
  | ready => exact .inr (Bool.eq_false_of_not_eq_true fun hpriv => hopen ⟨hpriv, hlife, h, by decide⟩)

/-- Settles O46: a step that changes S performs one of the writers that set it or clear it. -/
theorem modeChangesOnlyAsListed : Obligations.ModeChangesOnlyAsListed := by
  unfold Obligations.ModeChangesOnlyAsListed
  intro s t hs
  obtain hsr | ⟨i, hi, hw⟩ := step_sr_cases s t hs
  · rw [hsr]
    exact ⟨fun h h' => (nomatch h.symm.trans h'), fun h h' => (nomatch h.symm.trans h')⟩
  · constructor
    · intro h h'
      obtain rfl | ⟨v, rfl, hv⟩ | ⟨rfl, hopen⟩ := srWrite_sets_mode s i _ hw h h'
      · exact .inl hi
      · exact .inr (.inl ⟨v, hi, hv⟩)
      · exact .inr (.inr ⟨hi, gate_inert_of_open s h hopen⟩)
    · intro h h'
      obtain rfl | ⟨v, rfl, hv⟩ := srWrite_clears_mode s i _ hw h h'
      · exact .inl hi
      · exact .inr ⟨v, hi, hv⟩

/-! ### Confined user mode -/

/-- In confined user mode every position above EXTEND is gated (R31). -/
theorem gate_of_confined (s : State) (pos : Nat) (h : s.Confined) (hp : 4 < pos) : s.Gate pos := by
  obtain ⟨hpriv, -, hlife, hmode⟩ := h
  exact ⟨hpriv, hlife, hmode, hp⟩

/-- In confined user mode the SR port is closed (R38). -/
theorem srPort_of_confined (s : State) (h : s.Confined) : s.params.srPortGated = true ∧ s.Gate 5 := by
  obtain ⟨-, hport, -, -⟩ := id h
  exact ⟨hport, gate_of_confined s 5 h (by decide)⟩

/-- In confined user mode no writer of SR but BOOTSTRAP changes a bit above EXTEND. -/
theorem srWrite_keeps_upper (s : State) (i : Instr) (sr : BitVec 16) (h : s.Confined) (hw : SrWrite s i sr)
    (hi : i ≠ .bootstrap) (j : Nat) (hj : 5 ≤ j) (hj' : j < 16) : sr.getLsbD j = s.regs.sr.getLsbD j := by
  cases hw with
  | setReg v => rw [getLsbD_srAfterPortWrite_closed s v j (srPort_of_confined s h) hj', if_neg (by omega)]
  | setSrBit b pos hp =>
    by_contra hne
    obtain ⟨rfl, hopen, -⟩ := eq_pos_of_srAfterBitWrite_ne s pos j b hp hj' hne
    exact hopen (gate_of_confined s j h (by omega))
  | bootstrap => exact absurd rfl hi
  | move dreg dmode sreg smode c r w => exact getLsbD_moveFlags_of_gt _ r w _ j (by omega) hj'

/-- A step that does not perform BOOTSTRAP leaves the lifecycle (R29). -/
theorem step_life (s t : State) (h : step s = .next t) (hb : ¬ s.Performs .bootstrap) : t.life = s.life := by
  obtain ⟨-, ⟨-, hl⟩ | ⟨i, rest, u, d, hi, hu, -, hl⟩⟩ := step_regs_cases s t h
  · exact hl
  · exact hl.trans (effect_life i { s with inbox := rest } u d hu fun hboot => hb (hboot ▸ hi))

/-- Settles O50: no writer performed but BOOTSTRAP changes the upper bits, S among them. -/
theorem confinedUserModeKeepsTheUpperBits : Obligations.ConfinedUserModeKeepsTheUpperBits := by
  unfold Obligations.ConfinedUserModeKeepsTheUpperBits
  intro s t h hb hs
  have hupper : ∀ j, 5 ≤ j → j < 16 → t.regs.sr.getLsbD j = s.regs.sr.getLsbD j := by
    obtain hsr | ⟨i, hi, hw⟩ := step_sr_cases s t hs
    · rw [hsr]
      exact fun _ _ _ => rfl
    · exact srWrite_keeps_upper s i _ h hw fun hboot => hb (hboot ▸ hi)
  obtain ⟨hpriv, hport, hlife, hmode⟩ := h
  have hparams : t.params = s.params := (step_regs_cases s t hs).1
  refine ⟨⟨hparams ▸ hpriv, hparams ▸ hport, ?_, ?_⟩, hupper⟩
  · rw [step_life s t hs hb, hlife]
  · rw [hupper 13 (by decide) (by decide), hmode]

/-! ### PC -/

/-- Settles O45: PC changes only by SET_REG PC; the port stores and reads all its bits. -/
theorem onlySetRegChangesThePc : Obligations.OnlySetRegChangesThePc := by
  unfold Obligations.OnlySetRegChangesThePc
  constructor
  · intro s t hs hne
    obtain ⟨-, ⟨hr, -⟩ | ⟨i, rest, u, d, hi, hu, hr, -⟩⟩ := step_regs_cases s t hs
    · exact absurd (by rw [hr]) hne
    · rw [hr] at hne ⊢
      obtain hpc | ⟨v, rfl, hv⟩ := effect_pc i _ u d hu
      · exact absurd hpc hne
      · exact ⟨v, hi, hv⟩
  · intro s v hh
    exact ⟨⟨_, exec_setReg_of_named s 0 .pc v hh rfl, rfl⟩, exec_getReg_of_named s 0 .pc hh rfl⟩

/-! ### The halted block -/

/-- A step of a halted block takes the packet and changes nothing but the response (R185). -/
theorem step_of_halted (s : State) (h : s.halted = true) :
    ∃ t, step s = .next t ∧ t.halted = true ∧ t.fault = s.fault ∧ t.regs = s.regs ∧ t.mem = s.mem ∧ t.life = s.life ∧
      t.params = s.params ∧ t.inbox = s.inbox.drop 1 := by
  obtain ⟨t, ht⟩ := step_next s
  refine ⟨t, ht, ?_⟩
  obtain ⟨hi, rfl⟩ | ⟨p, rest, s', hi, rfl, ⟨-, rfl⟩ | ⟨hrun, -⟩ | ⟨hrun, -⟩⟩ := step_effect_cases s t ht
  · rw [hi]
    exact ⟨h, rfl, rfl, rfl, rfl, rfl, rfl⟩
  · rw [hi]
    exact ⟨h, rfl, rfl, rfl, rfl, rfl, rfl⟩
  · rw [h] at hrun; cases hrun
  · rw [h] at hrun; cases hrun

/-- Settles O13, by induction on the number of steps. -/
theorem haltIsPermanentOverEveryRun : Obligations.HaltIsPermanentOverEveryRun := by
  unfold Obligations.HaltIsPermanentOverEveryRun
  intro k
  induction k with
  | zero => exact fun s h => ⟨s, run_zero s, h, rfl, rfl, rfl, rfl, rfl, rfl⟩
  | succ k ih =>
    intro s h
    obtain ⟨u, hstep, hu, huf, hur, hum, hul, hup, hui⟩ := step_of_halted s h
    obtain ⟨t, hrun, ht, htf, htr, htm, htl, htp, hti⟩ := ih u hu
    refine ⟨t, (run_succ k s u hstep).trans hrun, ht, htf.trans huf, htr.trans hur, htm.trans hum, htl.trans hul,
      htp.trans hup, ?_⟩
    rw [hti, hui, List.drop_drop, Nat.add_comm]

end Sys2Proof.Proofs
end

section
/-! PROOFS. The statements of spec/10_state.md about one command: the register and status-bit commands, BOOTSTRAP and
INIT_REGIONS, power-on, and the store's canonical form. -/

namespace Sys2Proof.Proofs

open Sys2Proof Sys2Proof.Machine

/-! ### Registers -/

/-- Settles O14: each of the twenty codes names the register whose read port answers as listed. -/
theorem getRegAnswersTheRegister : Obligations.GetRegAnswersTheRegister := by
  unfold Obligations.GetRegAnswersTheRegister
  intro s cv hh hmem
  suffices h : ∃ r, RegId.ofCode cv.1 = some r ∧ s.readReg r = cv.2 by
    obtain ⟨r, hc, hv⟩ := h
    rw [← hv]
    exact exec_getReg_of_named s cv.1 r hh hc
  revert cv
  simp only [List.forall_mem_cons, List.not_mem_nil, false_implies, implies_true, and_true]
  exact ⟨⟨.pc, rfl, rfl⟩, ⟨.sr, rfl, readReg_sr s⟩, ⟨.usp, rfl, rfl⟩, ⟨.ssp, rfl, rfl⟩,
    ⟨.d0, rfl, rfl⟩, ⟨.d1, rfl, rfl⟩, ⟨.d2, rfl, rfl⟩, ⟨.d3, rfl, rfl⟩,
    ⟨.d4, rfl, rfl⟩, ⟨.d5, rfl, rfl⟩, ⟨.d6, rfl, rfl⟩, ⟨.d7, rfl, rfl⟩,
    ⟨.a0, rfl, rfl⟩, ⟨.a1, rfl, rfl⟩, ⟨.a2, rfl, rfl⟩, ⟨.a3, rfl, rfl⟩,
    ⟨.a4, rfl, rfl⟩, ⟨.a5, rfl, rfl⟩, ⟨.a6, rfl, rfl⟩, ⟨.a7, rfl, readReg_a7 s⟩⟩

/-- Settles O15: each of the twenty codes names the register whose write port leaves the register file listed. -/
theorem setRegWritesTheRegister : Obligations.SetRegWritesTheRegister := by
  unfold Obligations.SetRegWritesTheRegister
  intro s v cr hh hmem
  suffices h : ∃ r, RegId.ofCode cr.1 = some r ∧ s.writeReg r v = s.withRegs cr.2 by
    obtain ⟨r, hc, hw⟩ := h
    rw [exec_setReg_of_named s cr.1 r v hh hc, hw]
    rfl
  revert cr
  simp only [List.forall_mem_cons, List.not_mem_nil, false_implies, implies_true, and_true]
  exact ⟨⟨.pc, rfl, rfl⟩, ⟨.sr, rfl, writeReg_sr s v⟩, ⟨.usp, rfl, rfl⟩, ⟨.ssp, rfl, rfl⟩,
    ⟨.d0, rfl, rfl⟩, ⟨.d1, rfl, rfl⟩, ⟨.d2, rfl, rfl⟩, ⟨.d3, rfl, rfl⟩,
    ⟨.d4, rfl, rfl⟩, ⟨.d5, rfl, rfl⟩, ⟨.d6, rfl, rfl⟩, ⟨.d7, rfl, rfl⟩,
    ⟨.a0, rfl, rfl⟩, ⟨.a1, rfl, rfl⟩, ⟨.a2, rfl, rfl⟩, ⟨.a3, rfl, rfl⟩,
    ⟨.a4, rfl, rfl⟩, ⟨.a5, rfl, rfl⟩, ⟨.a6, rfl, rfl⟩, ⟨.a7, rfl, writeReg_a7 s v⟩⟩

/-- The low 16 bits of a word. -/
theorem setWidth_setWidth_16 (v : Word) : (v.setWidth 16).setWidth 32 = v &&& 0x0000FFFF := by
  apply BitVec.eq_of_toNat_eq
  have hand : v.toNat &&& 0xFFFF = v.toNat % 2 ^ 16 := Nat.and_two_pow_sub_one_eq_mod v.toNat 16
  have hlt : v.toNat % 2 ^ 16 < 2 ^ 32 := by omega
  rw [BitVec.toNat_setWidth, BitVec.toNat_setWidth, Nat.mod_eq_of_lt hlt]
  exact hand.symm

/-- Settles O17: SR is the one register that does not keep the whole value. -/
theorem registerRoundTrip : Obligations.RegisterRoundTrip := by
  unfold Obligations.RegisterRoundTrip
  intro s c v hh hport hc
  obtain ⟨r, hr, -⟩ := checkRegister_of_lt c hc
  refine ⟨_, exec_setReg_of_named s c r v hh hr, ?_⟩
  rw [exec_getReg_of_named _ c r (by simpa using hh) hr, readReg_respond]
  suffices h : (s.writeReg r v).readReg r = if c = 1 then v &&& 0x0000FFFF else v by rw [h]
  by_cases hsr : r = .sr
  · subst hsr
    have hopen (t : State) (ht : t.params = s.params) : ¬ (t.params.srPortGated = true ∧ t.Gate 5) := by
      rw [ht, hport]
      exact fun h => nomatch h.1
    rw [if_pos (ofCode_inj c 1 .sr hr rfl), readReg_sr, if_neg (hopen _ (writeReg_params s .sr v)), writeReg_sr,
      srAfterPortWrite, if_neg (hopen s rfl)]
    exact setWidth_setWidth_16 v
  · have hc1 : c ≠ 1 := fun h => hsr (Option.some.inj (hr.symm.trans (h ▸ rfl)))
    rw [if_neg hc1, readReg_writeReg_same s r v hsr]

/-! ### Status bits -/

/-- Settles O20: the status-bit read. -/
theorem getSrBitAnswersTheBit : Obligations.GetSrBitAnswersTheBit := by
  unfold Obligations.GetSrBitAnswersTheBit
  exact exec_getSrBit_of_named

/-- Other masks than the named ones select no position (R32). -/
theorem statusBitPos_of_not_named (mask : BitVec 16) (h : mask ∉ namedMasks) :
    statusBitPos mask = .error (.invariant .invalidMask) := if_neg h

/-- Both status-bit commands take the error of a mask that is not named (R122, R123). -/
theorem exec_srBit_of_not_named (s : State) (mask : BitVec 16) (b : Bool) (hh : s.halted = false) (h : mask ∉ namedMasks) :
    exec (.getSrBit mask) s = .next (s.raise (.invariant .invalidMask)) ∧
    exec (.setSrBit b mask) s = .next (s.raise (.invariant .invalidMask)) := by
  rw [exec_getSrBit, exec_setSrBit]
  constructor
  · exact perform_error _ s _ hh (by rw [State.srBitGet, statusBitPos_of_not_named mask h]; rfl)
  · exact perform_error _ s _ hh (by rw [State.srBitSet, statusBitPos_of_not_named mask h]; rfl)

/-- The bit read where the status-bit write was not gated is the one written (R34). -/
theorem getLsbD_srAfterBitWrite_same (s : State) (pos : Nat) (b : Bool) (hp : pos ∈ namedPositions) (h : ¬ s.Gate pos) :
    (srAfterBitWrite s pos b).getLsbD pos = b := by
  have hlt := lt_of_mem_namedPositions pos hp
  rw [getLsbD_srAfterBitWrite s pos b pos h (by omega) hlt, if_pos rfl]

/-- Settles O22: the named masks are those of the named positions, and no other mask is accepted. -/
theorem onlyNamedMasksAreAccepted : Obligations.OnlyNamedMasksAreAccepted := by
  unfold Obligations.OnlyNamedMasksAreAccepted
  intro s mask b hh
  refine ⟨exec_srBit_of_not_named s mask b hh, fun hnamed => ?_⟩
  obtain ⟨pos, hp, rfl⟩ := List.mem_map.mp (namedMasks_eq ▸ hnamed : mask ∈ namedPositions.map fun pos => 1#16 <<< pos)
  exact ⟨pos, lsb_of_statusBitPos_ok _ pos (statusBitPos_of_named pos hp), exec_getSrBit_of_named s pos hh hp,
    _, exec_setSrBit_of_named s pos b hh hp, rfl, getLsbD_srAfterBitWrite_same s pos b hp⟩

/-- A bit that is not gated, set to 1, is still not gated: setting S opens the gate, another bit leaves it. -/
theorem not_gate_after_set (s : State) (pos : Nat) (hp : pos ∈ namedPositions) (h : ¬ s.Gate pos) :
    ¬ (s.withSr (srAfterBitWrite s pos true)).Gate pos := by
  intro hgate
  obtain ⟨hpriv, hlife, hmode, habove⟩ := hgate
  have hlt := lt_of_mem_namedPositions pos hp
  have hmode' : (srAfterBitWrite s pos true).getLsbD 13 = false := hmode
  rw [getLsbD_srAfterBitWrite s pos true 13 h (by omega) (by decide)] at hmode'
  by_cases h13 : 13 = pos
  · rw [if_pos h13] at hmode'; cases hmode'
  · rw [if_neg h13] at hmode'
    exact h ⟨hpriv, hlife, hmode', habove⟩

/-- The state SET_SR_BIT of a named mask leaves (R34, R123). -/
def afterSetSrBit (s : State) (pos : Nat) (b : Bool) : State := (s.withSr (srAfterBitWrite s pos b)).respond (.ok 0)

/-- A bit written where it is not gated reads as it was written: a 1 because the gate stays open, a 0 in any case. -/
theorem exec_getSrBit_afterSetSrBit (s : State) (pos : Nat) (b : Bool) (hh : s.halted = false) (hp : pos ∈ namedPositions)
    (h : ¬ s.Gate pos) :
    exec (.getSrBit (1#16 <<< pos)) (afterSetSrBit s pos b) =
      .next ((afterSetSrBit s pos b).respond (.ok (if b then 1 else 0))) := by
  have hbit : (afterSetSrBit s pos b).regs.sr.getLsbD pos = b := getLsbD_srAfterBitWrite_same s pos b hp h
  rw [exec_getSrBit_of_named (afterSetSrBit s pos b) pos hh hp, hbit]
  cases b with
  | true =>
    have hopen : ¬ (afterSetSrBit s pos true).Gate pos := not_gate_after_set s pos hp h
    rw [if_neg hopen]
  | false => rw [if_neg Bool.false_ne_true, ite_self]

/-- Settles O23: each write reaches the bit, and the next read answers it. -/
theorem statusBitRoundTrip : Obligations.StatusBitRoundTrip := by
  unfold Obligations.StatusBitRoundTrip
  intro s pos hh hp hopen
  have hlt := lt_of_mem_namedPositions pos hp
  have hopen' : ¬ (afterSetSrBit s pos true).Gate pos := not_gate_after_set s pos hp hopen
  refine ⟨afterSetSrBit s pos true, afterSetSrBit (afterSetSrBit s pos true) pos false,
    exec_setSrBit_of_named s pos true hh hp, fun j hj hne => ?_, exec_getSrBit_afterSetSrBit s pos true hh hp hopen,
    exec_setSrBit_of_named _ pos false hh hp, exec_getSrBit_afterSetSrBit _ pos false hh hp hopen'⟩
  exact (getLsbD_srAfterBitWrite s pos true j hopen (by omega) hj).trans (if_neg hne)

/-- Settles O24: the gate of R31 needs the block Ready. -/
theorem gateIsInertBeforeReady : Obligations.GateIsInertBeforeReady := by
  unfold Obligations.GateIsInertBeforeReady
  intro s pos b hh hlife hp
  have hopen : ¬ s.Gate pos := fun hgate => by
    obtain ⟨-, hready, -, -⟩ := hgate
    exact nomatch hlife.symm.trans hready
  refine ⟨?_, _, exec_setSrBit_of_named s pos b hh hp, rfl, getLsbD_srAfterBitWrite_same s pos b hp hopen⟩
  rw [exec_getSrBit_of_named s pos hh hp, if_neg hopen]

/-! ### A switch of mode -/

/-- After a switch of mode, A7 and the gate go by the new value of S (R26, R31). -/
theorem reads_after_mode_switch (t : State) (sup : Bool) (hh : t.halted = false) (hs : t.regs.sr.getLsbD 13 = sup) :
    exec (.getReg 19) t = .next (t.respond (.ok (if sup then t.regs.ssp else t.regs.usp))) ∧
    exec (.getSrBit 0x8000) t =
      .next (t.respond (.ok (if t.params.privGateEnabled = true ∧ t.life = .ready ∧ sup = false then 0
        else if t.regs.sr.getLsbD 15 then 1 else 0))) := by
  constructor
  · rw [exec_getReg_of_named t 19 .a7 hh rfl, readReg_a7, hs]
  · have hgate : t.Gate 15 ↔ t.params.privGateEnabled = true ∧ t.life = .ready ∧ sup = false := by
      simp only [State.Gate, hs, Nat.reduceLT, and_true]
    have hread := exec_getSrBit_of_named t 15 hh (by decide)
    rw [if_congr hgate rfl rfl] at hread
    exact hread

/-- Settles O18: each of the three writers of S leaves the bit given, and the stack pointers. -/
theorem modeSwitchIsImmediate : Obligations.ModeSwitchIsImmediate := by
  unfold Obligations.ModeSwitchIsImmediate
  intro s t i sup hh hi ht
  suffices h : t.halted = false ∧ t.regs.ssp = s.regs.ssp ∧ t.regs.usp = s.regs.usp ∧ t.regs.sr.getLsbD 13 = sup by
    obtain ⟨hh', hssp, husp, hs⟩ := h
    rw [← hssp, ← husp]
    exact ⟨hs, reads_after_mode_switch t sup hh' hs⟩
  obtain ⟨v, rfl, hopen, rfl⟩ | ⟨b, rfl, hopen, rfl⟩ | ⟨rfl, rfl⟩ := hi
  · rw [exec_setReg_of_named s 1 .sr v hh rfl, writeReg_sr] at ht
    cases ht
    exact ⟨hh, rfl, rfl, getLsbD_srAfterPortWrite_open s v 13 hopen (by decide)⟩
  · have hset := exec_setSrBit_of_named s 13 sup hh (by decide)
    cases hset.symm.trans ht
    exact ⟨hh, rfl, rfl, getLsbD_srAfterBitWrite_same s 13 sup (by decide) hopen⟩
  · rw [exec_bootstrap_eq s hh] at ht
    cases ht
    exact ⟨hh, rfl, rfl, getLsbD_bootstrap s 13 (by decide)⟩

/-! ### BOOTSTRAP, INIT_REGIONS and power-on -/

/-- Settles O39: BOOTSTRAP sets S and no other bit, so A7 then names SSP. -/
theorem bootstrapEntersReadyInSupervisorMode : Obligations.BootstrapEntersReadyInSupervisorMode := by
  unfold Obligations.BootstrapEntersReadyInSupervisorMode
  intro s hh
  refine ⟨_, srSet s.regs.sr 13 true, exec_bootstrap_eq s hh, rfl, getLsbD_bootstrap s, ?_⟩
  exact (reads_after_mode_switch (((s.withSr (srSet s.regs.sr 13 true)).withLife .ready).respond (.ok 0)) true hh
    (getLsbD_bootstrap s 13 (by decide))).1

/-- Setting S is an OR with its mask (R43). -/
theorem srSet_mode (sr : BitVec 16) : srSet sr 13 true = sr ||| 0x2000 := by
  refine BitVec.eq_of_getLsbD_eq fun j hj => ?_
  have hmask : ∀ j < 16, BitVec.getLsbD (0x2000 : BitVec 16) j = decide (j = 13) := by decide
  rw [getLsbD_srSet sr 13 true j (by decide) hj, BitVec.getLsbD_or, hmask j hj]
  by_cases h : j = 13 <;> simp [h]

/-- Settles O40: power-on as tabulated, and BOOTSTRAP from it. -/
theorem powerOnStateIsAsTabulated : Obligations.PowerOnStateIsAsTabulated := by
  unfold Obligations.PowerOnStateIsAsTabulated
  intro p r m
  refine ⟨rfl, rfl, rfl, rfl, rfl, rfl, _, exec_bootstrap_eq _ rfl, rfl, rfl, rfl, rfl, ?_⟩
  rw [← srSet_mode]
  rfl

/-- Settles O31: only the response port changes, and no command reads it. -/
theorem initRegionsHasNoEffect : Obligations.InitRegionsHasNoEffect := by
  unfold Obligations.InitRegionsHasNoEffect
  intro s hh
  refine ⟨exec_initRegions_eq s hh, fun t j ht => ?_⟩
  rw [exec_initRegions_eq s hh] at ht
  cases ht
  exact exec_respond j s _

/-! ### The canonical store -/

/-- The cells of a canonical store are the addresses that do not read as unlisted, each with its byte (log 3). -/
theorem mem_iff_readByte (m : Memory) (h : m.wf) (a : Nat) (b : Byte) :
    (a, b) ∈ m ↔ m.readByte a = b ∧ b ≠ unlistedByte := by
  obtain ⟨hsorted, hcells⟩ := h
  induction m with
  | nil => exact ⟨fun hm => (nomatch hm), fun ⟨hb, hne⟩ => absurd hb.symm hne⟩
  | cons c rest ih =>
    obtain ⟨k, c⟩ := c
    obtain ⟨hk, hrest⟩ := List.pairwise_cons.mp hsorted
    have ih := ih hrest fun d hd => hcells d (List.mem_cons_of_mem _ hd)
    simp only [List.mem_cons, Prod.mk.injEq, Memory.readByte]
    by_cases hka : k = a
    · subst hka
      have hc : c ≠ unlistedByte := (hcells (k, c) List.mem_cons_self).2
      have hnot : (k, b) ∉ rest := fun hm => Nat.lt_irrefl k (hk (k, b) hm)
      rw [if_pos rfl]
      constructor
      · intro hm
        obtain ⟨-, rfl⟩ := hm.resolve_right hnot
        exact ⟨rfl, hc⟩
      · exact fun ⟨hb, _⟩ => .inl ⟨rfl, hb.symm⟩
    · rw [if_neg hka, ← ih]
      exact ⟨fun hm => hm.resolve_left fun ⟨ha, _⟩ => hka ha.symm, .inr⟩

/-- Settles O32: stores that read alike list the same cells, and a list in rising order is determined by its members. -/
theorem canonicalStoresAreDeterminedByTheirBytes : Obligations.CanonicalStoresAreDeterminedByTheirBytes := by
  unfold Obligations.CanonicalStoresAreDeterminedByTheirBytes
  intro m m' h h' hread
  have hmem : ∀ c : Host.Cell, c ∈ m ↔ c ∈ m' := fun (a, b) => by
    rw [mem_iff_readByte m h, mem_iff_readByte m' h', hread a]
  have hnodup (l : Memory) (hl : l.wf) : l.Nodup := hl.1.imp fun hlt heq => Nat.ne_of_lt hlt (congrArg Prod.fst heq)
  have hperm : m.Perm m' := (List.perm_ext_iff_of_nodup (hnodup m h) (hnodup m' h')).mpr hmem
  exact hperm.eq_of_pairwise (fun x y _ _ hxy hyx => absurd hxy (Nat.lt_asymm hyx)) h.1 h'.1

end Sys2Proof.Proofs
end

section
/-! PROOFS. One command in two states that differ in SR or in the lifecycle only: what the command comes to in the one, it comes
to in the other (R31, R38, R124, R165). -/

namespace Sys2Proof.Proofs

open Sys2Proof Sys2Proof.Machine

/-! ### Two results of one command -/

/-- Two results with the same error, or both without one and related. -/
inductive SameErrorOr {α β : Type} (R : α → β → Prop) : Except Error α → Except Error β → Prop
  | error (e : Error) : SameErrorOr R (.error e) (.error e)
  | ok (a : α) (b : β) (h : R a b) : SameErrorOr R (.ok a) (.ok b)

/-- Two checks in sequence. -/
theorem SameErrorOr.bind {α β γ δ : Type} {R : α → β → Prop} {S : γ → δ → Prop} {x : Except Error α}
    {y : Except Error β} {f : α → Except Error γ} {g : β → Except Error δ} (h : SameErrorOr R x y)
    (hfg : ∀ a b, R a b → SameErrorOr S (f a) (g b)) : SameErrorOr S (x.bind f) (y.bind g) := by
  cases h with
  | error e => exact .error e
  | ok a b hab => exact hfg a b hab

/-- The same check first on both sides. -/
theorem SameErrorOr.after_check {α γ δ : Type} {S : γ → δ → Prop} {f : α → Except Error γ} {g : α → Except Error δ}
    (x : Except Error α) (hfg : ∀ a, x = .ok a → SameErrorOr S (f a) (g a)) : SameErrorOr S (x.bind f) (x.bind g) := by
  cases x with
  | error e => exact .error e
  | ok a => exact hfg a rfl

/-- A result is related to itself by a relation that holds of equals. -/
theorem SameErrorOr.refl {α : Type} {R : α → α → Prop} (hR : ∀ a, R a a) (x : Except Error α) : SameErrorOr R x x := by
  cases x with
  | error e => exact .error e
  | ok a => exact .ok a a (hR a)

/-- Both outcomes are next states, and these are related. -/
def NextRelated (R : State → State → Prop) (o o' : Host.Outcome State Fault Refusal) : Prop :=
  ∃ t t', o = .next t ∧ o' = .next t' ∧ R t t'

/-- The next states of related outcomes are related. -/
theorem NextRelated.next {R : State → State → Prop} {o o' : Host.Outcome State Fault Refusal} {t t' : State}
    (h : NextRelated R o o') (ht : o = .next t) (ht' : o' = .next t') : R t t' := by
  obtain ⟨u, u', rfl, rfl, hR⟩ := h
  cases ht
  cases ht'
  exact hR

/-- A command performed in two states: both halted, both in one error, or both completing. -/
theorem perform_related {R : State → State → Prop} (Q : State × Word → State × Word → Prop) {c : State → Result}
    {s s' : State} (hh : s'.halted = s.halted) (hhalt : R (s.respond .halted) (s'.respond .halted))
    (hraise : ∀ e, R (s.raise e) (s'.raise e))
    (hok : ∀ x y, Q x y → R (x.1.respond (.ok x.2)) (y.1.respond (.ok y.2))) (hc : SameErrorOr Q (c s) (c s')) :
    NextRelated R (perform c s) (perform c s') := by
  refine ⟨_, _, rfl, rfl, ?_⟩
  rw [hh]
  cases s.halted with
  | true => exact hhalt
  | false =>
    generalize c s = x at hc
    generalize c s' = y at hc
    cases hc with
    | error e => exact hraise e
    | ok a b hab => exact hok a b hab

/-! ### SR and the registers beside it -/

/-- The cells other than SR do not depend on it. -/
theorem get_withSr (c : RegCell) (r : Regs) (sr : BitVec 16) (h : c ≠ .sr) : Regs.get c { r with sr := sr } = r.get c := by
  cases c with
  | sr => exact absurd rfl h
  | _ => rfl

/-- A store into a cell other than SR goes past it. -/
theorem set_withSr (c : RegCell) (v : Word) (r : Regs) (sr : BitVec 16) (h : c ≠ .sr) :
    Regs.set c v { r with sr := sr } = { r.set c v with sr := sr } := by
  cases c with
  | sr => exact absurd rfl h
  | _ => rfl

/-- A register other than A7 names the same cell in both modes (R26). -/
theorem registerCell_of_ne_a7 (r : RegId) (b b' : Bool) (h : r ≠ .a7) : registerCell r b = registerCell r b' := by
  cases r with
  | a7 => exact absurd rfl h
  | _ => rfl

section
variable (s : State) (r : RegId) (sr : BitVec 16) (hr : r ≠ .sr)
  (hcell : registerCell r (s.withSr sr).supervisor = registerCell r s.supervisor)
include hr hcell

/-- A register that names the same cell under another SR reads the same. -/
theorem readReg_withSr : (s.withSr sr).readReg r = s.readReg r := by
  rw [readReg_of_ne_sr _ r hr, readReg_of_ne_sr _ r hr, hcell, withSr_regs,
    get_withSr _ _ _ fun hc => hr ((registerCell_eq_sr r _).mp hc)]

/-- A register that names the same cell under another SR is written past it. -/
theorem writeReg_withSr (v : Word) : (s.withSr sr).writeReg r v = (s.writeReg r v).withSr sr := by
  rw [writeReg_of_ne_sr _ r v hr, writeReg_of_ne_sr _ r v hr, hcell, withSr_regs,
    set_withSr _ _ _ _ fun hc => hr ((registerCell_eq_sr r _).mp hc)]
  rfl
end

/-- An error leaves SR, so it can be written before or after. -/
theorem raise_withSr (s : State) (e : Error) (sr : BitVec 16) : (s.withSr sr).raise e = (s.raise e).withSr sr := by
  unfold State.raise
  rw [withSr_params]
  split <;> rfl

/-- An error leaves the lifecycle, so it can be set before or after. -/
theorem raise_withLife (s : State) (e : Error) (l : Life) : (s.withLife l).raise e = (s.raise e).withLife l := by
  unfold State.raise
  rw [withLife_params]
  split <;> rfl

/-! ### MOVE in two states -/

/-- MOVE in two states with the same parameters: the sources read are related, and so are the states stored. -/
theorem moveCommand_related (V : Word → Word → Prop) (Q : State × Word → State × Word → Prop) (s s' : State)
    (dreg : BitVec 5) (dmode : BitVec 2) (sreg : BitVec 5) (smode : BitVec 2) (c : BitVec 3) (hp : s'.params = s.params)
    (hsource : ∀ w src, checkOperand s.params .source sreg smode w = .ok src →
      SameErrorOr V (resolveSource s src w) (resolveSource s' src w))
    (hstore : ∀ w dst v v', checkOperand s.params .destination dreg dmode w = .ok dst → V v v' →
      SameErrorOr (fun x y => Q (x.1.withSr (moveFlags s.params x.2 w x.1.regs.sr), 0)
          (y.1.withSr (moveFlags s.params y.2 w y.1.regs.sr), 0))
        (storeSized (resolveDestination s dst) v w s) (storeSized (resolveDestination s' dst) v' w s')) :
    SameErrorOr Q (moveCommand dreg dmode sreg smode c s) (moveCommand dreg dmode sreg smode c s') := by
  unfold moveCommand
  rw [hp]
  refine .after_check _ fun w _ => .after_check _ fun src hsrc => .bind (hsource w src hsrc) fun v v' hv => ?_
  refine .after_check _ fun dst hdst => .after_check _ fun _ _ => .bind (hstore w dst v v' hdst hv) fun x y hxy => ?_
  exact .ok _ _ hxy

/-- A relation of states that the operations of a command carry along: it fixes what the checks and the memory depend on, and
lasts through the responses, the stores and the flags. -/
structure Carried (R : State → State → Prop) : Prop where
  params : ∀ {s s'}, R s s' → s'.params = s.params
  halted : ∀ {s s'}, R s s' → s'.halted = s.halted
  mem : ∀ {s s'}, R s s' → s'.mem = s.mem
  respond : ∀ {s s'} x, R s s' → R (s.respond x) (s'.respond x)
  raise : ∀ {s s'} e, R s s' → R (s.raise e) (s'.raise e)
  store : ∀ {s s'} m, R s s' → R (s.withMem m) (s'.withMem m)
  flags : ∀ {s s'} r w, R s s' →
    R (s.withSr (moveFlags s.params r w s.regs.sr)) (s'.withSr (moveFlags s.params r w s'.regs.sr))

section
variable {R : State → State → Prop} (hR : Carried R) (s s' : State) (h : R s s')
include hR h

/-- A command performed in two states that the relation carries along. -/
theorem perform_carried {c : State → Result} (hc : SameErrorOr (fun x y => R x.1 y.1 ∧ x.2 = y.2) (c s) (c s')) :
    NextRelated R (perform c s) (perform c s') := by
  refine perform_related (fun x y => R x.1 y.1 ∧ x.2 = y.2) (hR.halted h) (hR.respond _ h) (fun e => hR.raise e h) ?_ hc
  rintro x y ⟨hxy, hd⟩
  rw [hd]
  exact hR.respond _ hxy

/-- MOVE in two related states whose operands read alike and whose destination is written alike. -/
theorem moveCommand_carried (dreg : BitVec 5) (dmode : BitVec 2) (sreg : BitVec 5) (smode : BitVec 2) (c : BitVec 3)
    (hread : ∀ r, RegId.ofCode sreg = some r ∨ RegId.ofCode dreg = some r → r ≠ .sr → s'.readReg r = s.readReg r)
    (hwrite : ∀ r v, RegId.ofCode dreg = some r → r ≠ .sr → R (s.writeReg r v) (s'.writeReg r v)) :
    SameErrorOr (fun x y => R x.1 y.1 ∧ x.2 = y.2) (moveCommand dreg dmode sreg smode c s)
      (moveCommand dreg dmode sreg smode c s') := by
  have hflags (w : Width) (t t' : State) (r : Word) (ht : R t t') (hp : t.params = s.params) :
      R (t.withSr (moveFlags s.params r w t.regs.sr)) (t'.withSr (moveFlags s.params r w t'.regs.sr)) := by
    rw [← hp]; exact hR.flags r w ht
  refine moveCommand_related Eq _ s s' dreg dmode sreg smode c (hR.params h) (fun w src hsrc => ?_) ?_
  · obtain ⟨hreg, -, hkind, -⟩ := checkOperand_ok _ _ _ _ _ _ hsrc
    have hsame : resolveSource s' src w = resolveSource s src w := by
      unfold resolveSource
      rw [hread src.reg (.inl hreg) (kindSuits_ne_sr _ _ hkind).1, hR.params h, hR.mem h]
    rw [hsame]
    exact .refl (fun _ => rfl) _
  · rintro w dst v v' hdst rfl
    obtain ⟨hreg, -, hkind, -⟩ := checkOperand_ok _ _ _ _ _ _ hdst
    have hne := (kindSuits_ne_sr _ _ hkind).1
    have hsame : resolveDestination s' dst = resolveDestination s dst := by
      unfold resolveDestination
      rw [hread dst.reg (.inr hreg) hne]
    rw [hsame]
    have hdirect (old : Word) := hwrite dst.reg (merge old v w) hreg hne
    unfold resolveDestination
    cases dst.mode with
    | dataDirect => exact .ok _ _ ⟨hflags w _ _ _ (hdirect _) (writeReg_params _ _ _), rfl⟩
    | addressDirect => exact .ok _ _ ⟨hflags w _ _ _ (hdirect _) (writeReg_params _ _ _), rfl⟩
    | indirect =>
      show SameErrorOr _ (Except.bind (memWrite _ _ _ w v) _) (Except.bind (memWrite _ _ _ w v) _)
      rw [hR.params h, hR.mem h]
      exact .after_check _ fun m _ => .ok _ _ ⟨hflags w _ _ _ (hR.store m h) rfl, rfl⟩
end

/-! ### MOVE in each lifecycle state and mode -/

/-- The other lifecycle state is carried along. -/
theorem carried_withLife (l : Life) : Carried fun s s' => s' = s.withLife l where
  params := by rintro s _ rfl; rfl
  halted := by rintro s _ rfl; rfl
  mem := by rintro s _ rfl; rfl
  respond := by rintro s _ x rfl; rfl
  raise := by rintro s _ e rfl; exact raise_withLife s e l
  store := by rintro s _ m rfl; rfl
  flags := by rintro s _ r w rfl; rfl

/-- The other mode: S flipped. -/
def flipMode (s : State) : State := s.withSr (s.regs.sr ^^^ 0x2000)

/-- The flag unit leaves S, so it can be flipped before or after (R160). -/
theorem moveFlags_flip (p : Params) (r : Word) (w : Width) (sr : BitVec 16) :
    moveFlags p r w (sr ^^^ 0x2000) = moveFlags p r w sr ^^^ 0x2000 := by
  refine BitVec.eq_of_getLsbD_eq fun j hj => ?_
  have hmask : ∀ j < 4, BitVec.getLsbD (0x2000 : BitVec 16) j = false := by decide
  rw [BitVec.getLsbD_xor, getLsbD_moveFlags _ _ _ _ _ hj, getLsbD_moveFlags _ _ _ _ _ hj, BitVec.getLsbD_xor]
  by_cases h : j < 4
  · have hlow : j = 0 ∨ j = 1 ∨ j = 2 ∨ j = 3 := by omega
    rw [hmask j h]
    obtain rfl | rfl | rfl | rfl := hlow <;> simp
  · rw [if_neg (by omega), if_neg (by omega), if_neg (by omega), if_neg (by omega), if_neg (by omega), if_neg (by omega),
      if_neg (by omega), if_neg (by omega)]

/-- The other mode is carried along. -/
theorem carried_flipMode : Carried fun s s' => s' = flipMode s where
  params := by rintro s _ rfl; rfl
  halted := by rintro s _ rfl; rfl
  mem := by rintro s _ rfl; rfl
  respond := by rintro s _ x rfl; rfl
  raise := by rintro s _ e rfl; rw [flipMode, flipMode, raise_withSr, raise_regs]
  store := by rintro s _ m rfl; rfl
  flags := by
    rintro s _ r w rfl
    show s.withSr (moveFlags s.params r w (s.regs.sr ^^^ 0x2000)) = s.withSr (moveFlags s.params r w s.regs.sr ^^^ 0x2000)
    rw [moveFlags_flip]

/-- Settles O38: the lifecycle reaches no register but SR, and the mode no register but A7. -/
theorem moveIsTheSameInEveryModeAndLifecycle : Obligations.MoveIsTheSameInEveryModeAndLifecycle := by
  unfold Obligations.MoveIsTheSameInEveryModeAndLifecycle
  intro s t dreg dmode sreg smode c ht
  rw [exec_move] at ht
  constructor
  · intro l
    rw [exec_move]
    have hmove := moveCommand_carried (carried_withLife l) s _ rfl dreg dmode sreg smode c
      (fun r _ hr => by rw [readReg_of_ne_sr _ r hr, readReg_of_ne_sr _ r hr]; rfl)
      (fun r v _ hr => by rw [writeReg_of_ne_sr _ r v hr, writeReg_of_ne_sr _ r v hr]; rfl)
    obtain ⟨u, u', hu, hu', rfl⟩ := perform_carried (carried_withLife l) s _ rfl hmove
    cases hu.symm.trans ht
    exact hu'
  · intro hd hsrc
    rw [exec_move]
    have hcell (r : RegId) (hr : RegId.ofCode sreg = some r ∨ RegId.ofCode dreg = some r) :
        registerCell r (flipMode s).supervisor = registerCell r s.supervisor := by
      refine registerCell_of_ne_a7 r _ _ fun ha7 => ?_
      subst ha7
      obtain hr | hr := hr
      · exact hsrc (ofCode_inj sreg 19 .a7 hr rfl)
      · exact hd (ofCode_inj dreg 19 .a7 hr rfl)
    have hmove := moveCommand_carried carried_flipMode s _ rfl dreg dmode sreg smode c
      (fun r hrc hr => readReg_withSr s r _ hr (hcell r hrc))
      (fun r v hrc hr => by
        rw [flipMode, flipMode, writeReg_withSr s r _ hr (hcell r (.inr hrc)), writeReg_sr_of_ne s r v hr])
    obtain ⟨u, u', hu, hu', rfl⟩ := perform_carried carried_flipMode s _ rfl hmove
    cases hu.symm.trans ht
    exact hu'

/-! ### STATUS in both modes -/

/-- The last responses have the same STATUS. -/
def SameStatus (s s' : State) : Prop := s'.response.map (·.status) = s.response.map (·.status)

/-- An allowed write is allowed whatever the value (R58). -/
theorem memWrite_sameError (p : Params) (m : Memory) (a : Word) (w : Width) (v v' : Word) :
    SameErrorOr (fun _ _ => True) (memWrite p m a w v) (memWrite p m a w v') := by
  rw [memWrite_eq, memWrite_eq]
  split
  · exact .ok _ _ trivial
  · exact .error _

/-- The status-bit read checks the mask only (R32). -/
theorem srBitGet_sameError (s : State) (sr mask : BitVec 16) :
    SameErrorOr (fun _ _ => True) (s.srBitGet mask) ((s.withSr sr).srBitGet mask) :=
  .after_check (statusBitPos mask) fun _ _ => .ok _ _ trivial

/-- The status-bit write checks the mask only (R32). -/
theorem srBitSet_sameError (s : State) (sr mask : BitVec 16) (b : Bool) :
    SameErrorOr (fun _ _ => True) (s.srBitSet mask b) ((s.withSr sr).srBitSet mask b) :=
  .after_check (statusBitPos mask) fun _ _ => .ok _ _ trivial

/-- An indirect operand other than A7 holds the same pointer under another SR (R26, R148). -/
theorem readReg_pointer_withSr (s : State) (sr : BitVec 16) (role : Role) (reg : BitVec 5) (mode : BitVec 2) (w : Width)
    (op : Operand) (hne : ¬ (mode = 2 ∧ reg = 19)) (hop : checkOperand s.params role reg mode w = .ok op)
    (hi : op.mode = .indirect) : (s.withSr sr).readReg op.reg = s.readReg op.reg := by
  obtain ⟨hreg, hmode, hkind, -⟩ := checkOperand_ok _ _ _ _ _ _ hop
  refine readReg_withSr s op.reg sr (kindSuits_ne_sr _ _ hkind).1 (registerCell_of_ne_a7 _ _ _ fun ha7 => ?_)
  exact hne ⟨(modeOfCode_indirect mode op.mode hmode).mp hi, ofCode_inj reg 19 .a7 (ha7 ▸ hreg) rfl⟩

/-- MOVE takes the same error under another SR, unless an indirect operand is A7 (R26, R148). -/
theorem moveCommand_sameError (s : State) (sr : BitVec 16) (dreg : BitVec 5) (dmode : BitVec 2) (sreg : BitVec 5)
    (smode : BitVec 2) (c : BitVec 3) (hs : ¬ (smode = 2 ∧ sreg = 19)) (hd : ¬ (dmode = 2 ∧ dreg = 19)) :
    SameErrorOr (fun _ _ => True) (moveCommand dreg dmode sreg smode c s)
      (moveCommand dreg dmode sreg smode c (s.withSr sr)) := by
  refine moveCommand_related (fun _ _ => True) _ s _ dreg dmode sreg smode c rfl (fun w src hsrc => ?_)
    fun w dst v v' hdst _ => ?_
  · have hptr := readReg_pointer_withSr s sr _ _ _ _ _ hs hsrc
    unfold resolveSource
    cases hm : src.mode with
    | dataDirect => exact .ok _ _ trivial
    | addressDirect => exact .ok _ _ trivial
    | indirect =>
      rw [hptr hm]
      exact .refl (fun _ => trivial) _
  · have hptr := readReg_pointer_withSr s sr _ _ _ _ _ hd hdst
    unfold resolveDestination
    cases hm : dst.mode with
    | dataDirect => exact .ok _ _ trivial
    | addressDirect => exact .ok _ _ trivial
    | indirect =>
      rw [hptr hm]
      exact .bind (memWrite_sameError _ _ _ _ _ _) fun m m' _ => .ok _ _ trivial

/-- No command's STATUS depends on SR, but for a MOVE through the pointer A7 (R124). -/
theorem exec_sameStatus (i : Instr) (s : State) (sr : BitVec 16)
    (hptr : ∀ dreg dmode sreg smode c, i = .move dreg dmode sreg smode c →
      ¬ (smode = 2 ∧ sreg = 19) ∧ ¬ (dmode = 2 ∧ dreg = 19)) :
    NextRelated SameStatus (exec i s) (exec i (s.withSr sr)) := by
  have key {c : State → Result} (hc : SameErrorOr (fun _ _ => True) (c s) (c (s.withSr sr))) :
      NextRelated SameStatus (perform c s) (perform c (s.withSr sr)) :=
    perform_related (fun _ _ => True) rfl rfl (fun e => by rw [raise_withSr]; rfl) (fun _ _ _ => rfl) hc
  cases i with
  | bootstrap =>
    rw [exec_bootstrap, exec_bootstrap]
    exact key (.ok _ _ trivial)
  | initRegions =>
    rw [exec_initRegions, exec_initRegions]
    exact key (.ok _ _ trivial)
  | getReg reg =>
    rw [exec_getReg, exec_getReg]
    exact key (.after_check _ fun _ _ => .ok _ _ trivial)
  | setReg reg data =>
    rw [exec_setReg, exec_setReg]
    exact key (.after_check _ fun _ _ => .ok _ _ trivial)
  | getSrBit mask =>
    rw [exec_getSrBit, exec_getSrBit]
    exact key ((srBitGet_sameError s sr mask).bind fun _ _ _ => .ok _ _ trivial)
  | setSrBit bit mask =>
    rw [exec_setSrBit, exec_setSrBit]
    exact key ((srBitSet_sameError s sr mask bit).bind fun _ _ _ => .ok _ _ trivial)
  | memRead width addr =>
    rw [exec_memRead, exec_memRead]
    exact key (.after_check _ fun _ _ => .after_check _ fun _ _ => .ok _ _ trivial)
  | memWrite width addr data =>
    rw [exec_memWrite, exec_memWrite]
    exact key (.after_check _ fun _ _ => .after_check _ fun _ _ => .ok _ _ trivial)
  | move dreg dmode sreg smode c =>
    rw [exec_move, exec_move]
    obtain ⟨hs, hd⟩ := hptr dreg dmode sreg smode c rfl
    exact key (moveCommand_sameError s sr dreg dmode sreg smode c hs hd)

/-- Settles O52: STATUS does not depend on SR, so not on the mode. -/
theorem noCommandIsPrivileged : Obligations.NoCommandIsPrivileged := by
  unfold Obligations.NoCommandIsPrivileged
  intro i s t t' r r' hptr ht ht' hr hr'
  have hstatus : SameStatus t t' := (exec_sameStatus i s _ hptr).next ht ht'
  rw [SameStatus, hr, hr'] at hstatus
  exact Option.some.inj hstatus

/-! ### Confined user mode: the upper bits of SR are not seen -/

/-- Two SRs are alike below the gate exactly when their bits up to EXTEND are. -/
theorem lowSr_eq_iff (sr sr' : BitVec 16) : lowSr sr = lowSr sr' ↔ ∀ j < 5, sr.getLsbD j = sr'.getLsbD j := by
  have hmask : ∀ j < 16, BitVec.getLsbD (0x001F : BitVec 16) j = decide (j < 5) := by decide
  have hbit (x : BitVec 16) (j : Nat) (hj : j < 16) : (lowSr x).getLsbD j = (x.getLsbD j && decide (j < 5)) := by
    rw [lowSr, BitVec.getLsbD_and, hmask j hj]
  constructor
  · intro h j hj
    have hlow := congrArg (BitVec.getLsbD · j) h
    simpa only [hbit _ j (by omega), decide_eq_true hj, Bool.and_true] using hlow
  · intro h
    refine BitVec.eq_of_getLsbD_eq fun j hj => ?_
    rw [hbit sr j hj, hbit sr' j hj]
    by_cases h5 : j < 5
    · rw [h j h5]
    · simp [h5]

/-- A state that agrees below the gate is the state under another SR with the same low bits. -/
theorem agreeBelowGate_iff (s t : State) :
    s.AgreeBelowGate t ↔ ∃ sr, lowSr s.regs.sr = lowSr sr ∧ t = s.withSr sr := by
  constructor
  · rintro ⟨hlow, h⟩
    exact ⟨t.regs.sr, hlow, (congrArg (State.withSr t.regs.sr) h).symm⟩
  · rintro ⟨sr, hlow, rfl⟩
    exact ⟨hlow, congrArg (fun x => s.withSr x) hlow⟩

/-- SRs alike below the gate, written into agreeing states. -/
theorem AgreeBelowGate.withSr {s t : State} {sr sr' : BitVec 16} (h : s.AgreeBelowGate t) (hsr : lowSr sr = lowSr sr') :
    (s.withSr sr).AgreeBelowGate (t.withSr sr') := by
  obtain ⟨x, -, rfl⟩ := (agreeBelowGate_iff s t).mp h
  exact (agreeBelowGate_iff _ _).mpr ⟨sr', hsr, rfl⟩

/-- The flag unit computes the low bits of SR from its low bits (R160). -/
theorem lowSr_moveFlags (p : Params) (r : Word) (w : Width) (sr sr' : BitVec 16) (h : lowSr sr = lowSr sr') :
    lowSr (moveFlags p r w sr) = lowSr (moveFlags p r w sr') := by
  rw [lowSr_eq_iff] at h ⊢
  intro j hj
  rw [getLsbD_moveFlags _ _ _ _ _ (by omega), getLsbD_moveFlags _ _ _ _ _ (by omega), h j hj]

/-- The single-bit update keeps SRs alike below the gate (R13). -/
theorem lowSr_srSet (pos : Nat) (b : Bool) (sr sr' : BitVec 16) (hp : pos < 16) (h : lowSr sr = lowSr sr') :
    lowSr (srSet sr pos b) = lowSr (srSet sr' pos b) := by
  rw [lowSr_eq_iff] at h ⊢
  intro j hj
  rw [getLsbD_srSet _ _ _ _ (by omega) (by omega), getLsbD_srSet _ _ _ _ (by omega) (by omega), h j hj]

/-- Agreement below the gate is carried along. -/
theorem carried_agreeBelowGate : Carried State.AgreeBelowGate where
  params h := by obtain ⟨sr, -, rfl⟩ := (agreeBelowGate_iff _ _).mp h; rfl
  halted h := by obtain ⟨sr, -, rfl⟩ := (agreeBelowGate_iff _ _).mp h; rfl
  mem h := by obtain ⟨sr, -, rfl⟩ := (agreeBelowGate_iff _ _).mp h; rfl
  respond x h := by
    obtain ⟨sr, hlow, rfl⟩ := (agreeBelowGate_iff _ _).mp h
    exact (agreeBelowGate_iff _ _).mpr ⟨sr, hlow, rfl⟩
  raise {s _} e h := by
    obtain ⟨sr, hlow, rfl⟩ := (agreeBelowGate_iff _ _).mp h
    exact (agreeBelowGate_iff _ _).mpr ⟨sr, by rw [raise_regs]; exact hlow, raise_withSr s e sr⟩
  store m h := by
    obtain ⟨sr, hlow, rfl⟩ := (agreeBelowGate_iff _ _).mp h
    exact (agreeBelowGate_iff _ _).mpr ⟨sr, hlow, rfl⟩
  flags r w h := AgreeBelowGate.withSr h (lowSr_moveFlags _ r w _ _ h.1)

section
variable {s s' : State} (hs : s.Confined) (hs' : s'.Confined) (h : s.AgreeBelowGate s')

include hs in
/-- In confined user mode the gate is closed exactly above EXTEND (R31). -/
theorem gate_iff_of_confined (pos : Nat) : s.Gate pos ↔ 4 < pos :=
  ⟨fun ⟨_, _, _, hp⟩ => hp, gate_of_confined s pos hs⟩

include hs hs'

/-- In confined user mode a register names the same cell in every state (R26). -/
theorem registerCell_of_confined (r : RegId) : registerCell r s'.supervisor = registerCell r s.supervisor := by
  obtain ⟨-, -, -, hmode⟩ := hs
  obtain ⟨-, -, -, hmode'⟩ := hs'
  rw [State.supervisor, State.supervisor, bitS, hmode, hmode']

include h

/-- Confined states that agree read alike through the register port (R38). -/
theorem readReg_of_confined (r : RegId) : s'.readReg r = s.readReg r := by
  have hcell := registerCell_of_confined hs hs' r
  have hclosed := srPort_of_confined s hs
  have hclosed' := srPort_of_confined s' hs'
  by_cases hr : r = .sr
  · subst hr
    rw [readReg_sr, readReg_sr, if_pos hclosed, if_pos hclosed']
    exact congrArg (BitVec.setWidth 32) h.1.symm
  · obtain ⟨sr, -, rfl⟩ := (agreeBelowGate_iff _ _).mp h
    exact readReg_withSr s r sr hr hcell

/-- Confined states that agree are written alike through the register port (R38). -/
theorem writeReg_of_confined (r : RegId) (v : Word) : (s.writeReg r v).AgreeBelowGate (s'.writeReg r v) := by
  have hcell := registerCell_of_confined hs hs' r
  by_cases hr : r = .sr
  · subst hr
    rw [writeReg_sr, writeReg_sr]
    refine AgreeBelowGate.withSr h ((lowSr_eq_iff _ _).mpr fun j hj => ?_)
    rw [getLsbD_srAfterPortWrite_closed s v j (srPort_of_confined s hs) (by omega),
      getLsbD_srAfterPortWrite_closed s' v j (srPort_of_confined s' hs') (by omega), if_pos hj, if_pos hj]
  · obtain ⟨sr, hlow, rfl⟩ := (agreeBelowGate_iff _ _).mp h
    refine (agreeBelowGate_iff _ _).mpr ⟨sr, ?_, writeReg_withSr s r sr hr hcell v⟩
    rw [writeReg_sr_of_ne s r v hr]
    exact hlow

/-- Confined states that agree answer the same status bit: 0 above EXTEND (R33). -/
theorem srBitGet_of_confined (mask : BitVec 16) : s'.srBitGet mask = s.srBitGet mask := by
  cases hm : statusBitPos mask with
  | error e => rw [State.srBitGet, State.srBitGet, hm]; rfl
  | ok pos =>
    obtain ⟨hp, rfl⟩ := statusBitPos_ok mask pos hm
    rw [srBitGet_of_named s pos hp, srBitGet_of_named s' pos hp, if_congr (gate_iff_of_confined hs pos) rfl rfl,
      if_congr (gate_iff_of_confined hs' pos) rfl rfl]
    by_cases hpos : 4 < pos
    · rw [if_pos hpos, if_pos hpos]
    · rw [if_neg hpos, if_neg hpos, (lowSr_eq_iff _ _).mp h.1 pos (by omega)]

/-- Confined states that agree take the same status-bit write (R34). -/
theorem srBitSet_of_confined (mask : BitVec 16) (b : Bool) :
    SameErrorOr State.AgreeBelowGate (s.srBitSet mask b) (s'.srBitSet mask b) := by
  cases hm : statusBitPos mask with
  | error e => rw [State.srBitSet, State.srBitSet, hm]; exact .error e
  | ok pos =>
    obtain ⟨hp, rfl⟩ := statusBitPos_ok mask pos hm
    rw [srBitSet_of_named s pos b hp, srBitSet_of_named s' pos b hp]
    refine .ok _ _ (AgreeBelowGate.withSr h ?_)
    rw [srAfterBitWrite, srAfterBitWrite, if_congr (gate_iff_of_confined hs pos) rfl rfl,
      if_congr (gate_iff_of_confined hs' pos) rfl rfl]
    by_cases hpos : 4 < pos
    · rw [if_pos hpos, if_pos hpos]
      exact h.1
    · rw [if_neg hpos, if_neg hpos]
      exact lowSr_srSet pos b _ _ (by omega) h.1

/-- Confined states that agree come out of every command in agreement, the response included. -/
theorem exec_of_confined (i : Instr) : NextRelated State.AgreeBelowGate (exec i s) (exec i s') := by
  have hparams := carried_agreeBelowGate.params h
  have hmem := carried_agreeBelowGate.mem h
  cases i with
  | bootstrap =>
    rw [exec_bootstrap, exec_bootstrap]
    have hset := AgreeBelowGate.withSr h (lowSr_srSet 13 true _ _ (by decide) h.1)
    obtain ⟨sr, hlow, heq⟩ := (agreeBelowGate_iff _ _).mp hset
    exact perform_carried carried_agreeBelowGate _ _ h
      (.ok _ _ ⟨(agreeBelowGate_iff _ _).mpr ⟨sr, hlow, congrArg (State.withLife .ready) heq⟩, rfl⟩)
  | initRegions =>
    rw [exec_initRegions, exec_initRegions]
    exact perform_carried carried_agreeBelowGate _ _ h (.ok _ _ ⟨h, rfl⟩)
  | getReg reg =>
    rw [exec_getReg, exec_getReg]
    exact perform_carried carried_agreeBelowGate _ _ h
      (.after_check _ fun r _ => .ok _ _ ⟨h, (readReg_of_confined hs hs' h r).symm⟩)
  | setReg reg data =>
    rw [exec_setReg, exec_setReg]
    exact perform_carried carried_agreeBelowGate _ _ h
      (.after_check _ fun r _ => .ok _ _ ⟨writeReg_of_confined hs hs' h r data, rfl⟩)
  | getSrBit mask =>
    rw [exec_getSrBit, exec_getSrBit]
    refine perform_carried carried_agreeBelowGate _ _ h ?_
    rw [srBitGet_of_confined hs hs' h mask]
    exact .after_check _ fun _ _ => .ok _ _ ⟨h, rfl⟩
  | setSrBit bit mask =>
    rw [exec_setSrBit, exec_setSrBit]
    exact perform_carried carried_agreeBelowGate _ _ h
      (.bind (srBitSet_of_confined hs hs' h mask bit) fun _ _ ht => .ok _ _ ⟨ht, rfl⟩)
  | memRead width addr =>
    rw [exec_memRead, exec_memRead]
    refine perform_carried carried_agreeBelowGate _ _ h ?_
    rw [hparams, hmem]
    exact .after_check _ fun _ _ => .after_check _ fun _ _ => .ok _ _ ⟨h, rfl⟩
  | memWrite width addr data =>
    rw [exec_memWrite, exec_memWrite]
    refine perform_carried carried_agreeBelowGate _ _ h ?_
    rw [hparams, hmem]
    exact .after_check _ fun _ _ => .after_check _ fun m _ => .ok _ _ ⟨carried_agreeBelowGate.store m h, rfl⟩
  | move dreg dmode sreg smode c =>
    rw [exec_move, exec_move]
    exact perform_carried carried_agreeBelowGate _ _ h (moveCommand_carried carried_agreeBelowGate s s' h dreg dmode sreg smode c
      (fun r _ _ => readReg_of_confined hs hs' h r) fun r v _ _ => writeReg_of_confined hs hs' h r v)
end

/-- A step that takes a packet which decodes to no command rejects it (R93, R94). -/
theorem step_of_decode_error (s : State) (p : Packet) (rest : List Packet) (e : DecodeReject) (h : s.inbox = p :: rest)
    (hd : decode p = .error e) : step s = rejectCommand { s with inbox := rest } := by
  simp [step, State.accept, h, hd]

/-- Confined states that agree come out of every step in agreement. -/
theorem step_of_confined (s s' : State) (hs : s.Confined) (hs' : s'.Confined) (h : s.AgreeBelowGate s') :
    NextRelated State.AgreeBelowGate (step s) (step s') := by
  obtain ⟨sr, hlow, heq⟩ := (agreeBelowGate_iff s s').mp h
  have hinbox : s'.inbox = s.inbox := by rw [heq]; rfl
  cases hi : s.inbox with
  | nil => exact ⟨s, s', step_of_inbox_nil s hi, step_of_inbox_nil s' (hinbox.trans hi), h⟩
  | cons p rest =>
    have hrest : State.AgreeBelowGate { s with inbox := rest } { s' with inbox := rest } :=
      (agreeBelowGate_iff _ _).mpr ⟨sr, hlow, by rw [heq]; rfl⟩
    cases hd : decode p with
    | ok i =>
      rw [step_of_decode_ok s p rest i hi hd, step_of_decode_ok s' p rest i (hinbox.trans hi) hd]
      exact exec_of_confined (show State.Confined { s with inbox := rest } from hs)
        (show State.Confined { s' with inbox := rest } from hs') hrest i
    | error e =>
      rw [step_of_decode_error s p rest e hi hd, step_of_decode_error s' p rest e (hinbox.trans hi) hd]
      exact perform_carried carried_agreeBelowGate _ _ hrest (.error _)

/-- Settles O51: the next states agree below the gate, and agreement includes the response. -/
theorem confinedUserModeLearnsNoUpperBit : Obligations.ConfinedUserModeLearnsNoUpperBit := by
  unfold Obligations.ConfinedUserModeLearnsNoUpperBit
  intro s₁ s₂ t₁ t₂ hs₁ hs₂ h ht₁ ht₂
  have hagree : t₁.AgreeBelowGate t₂ := (step_of_confined s₁ s₂ hs₁ hs₂ h).next ht₁ ht₂
  obtain ⟨sr, -, heq⟩ := (agreeBelowGate_iff t₁ t₂).mp hagree
  exact ⟨by rw [heq]; rfl, hagree⟩

end Sys2Proof.Proofs
end

section
/-! PROOFS. The statements of spec/10_state.md about the frame of the register-writing commands and about the errors of a
command's own fields. -/

namespace Sys2Proof.Proofs

open Sys2Proof Sys2Proof.Machine

/-! ### The frame of the register-writing commands -/

/-- An error's response is no OK response (R95). -/
theorem ofError_ne_ok (e : Error) (d : Word) : Response.ofError e ≠ .ok d :=
  fun h => ofError_status_ne_zero e (congrArg (·.status) h)

/-- A command answered OK leaves the latch and its record (R184). -/
theorem exec_ok_keeps_latch (i : Instr) (s t : State) (d : Word) (h : exec i s = .next t) (hr : t.response = some (.ok d)) :
    t.halted = s.halted ∧ t.fault = s.fault := by
  obtain ⟨-, rfl⟩ | ⟨-, e, -, rfl⟩ | ⟨-, u, d', hu, rfl⟩ := exec_cases i s t h
  · exact ⟨rfl, rfl⟩
  · rw [raise_response] at hr
    exact absurd (Option.some.inj hr) (ofError_ne_ok e d)
  · obtain ⟨-, hh, hf, -, -⟩ := effect_keeps i s u d' hu
    exact ⟨hh, hf⟩

/-- What a command can do to the register file, memory and the lifecycle: nothing, or its effect; the parameters and the command
port it leaves. -/
theorem exec_state_cases (i : Instr) (s t : State) (h : exec i s = .next t) :
    t.params = s.params ∧ t.inbox = s.inbox ∧
    ((t.regs = s.regs ∧ t.mem = s.mem ∧ t.life = s.life) ∨
     ∃ u d, Effect i s u d ∧ t.regs = u.regs ∧ t.mem = u.mem ∧ t.life = u.life) := by
  obtain ⟨-, rfl⟩ | ⟨-, e, -, rfl⟩ | ⟨-, u, d, hu, rfl⟩ := exec_cases i s t h
  · exact ⟨rfl, rfl, .inl ⟨rfl, rfl, rfl⟩⟩
  · exact ⟨raise_params s e, raise_inbox s e, .inl ⟨raise_regs s e, raise_mem s e, raise_life s e⟩⟩
  · obtain ⟨hp, -, -, hi, -⟩ := effect_keeps i s u d hu
    exact ⟨hp, hi, .inr ⟨u, d, hu, rfl, rfl, rfl⟩⟩

/-- The command writes the register file, in this cell of it: SET_REG the identifier's (R26, R121), SET_SR_BIT and BOOTSTRAP SR
(R123, R175). -/
def WritesCell (s : State) (i : Instr) (own : RegCell) : Prop :=
  (∃ c v r, i = .setReg c v ∧ RegId.ofCode c = some r ∧ own = registerCell r (s.regs.sr.getLsbD 13)) ∨
  (∃ b m, i = .setSrBit b m ∧ own = .sr) ∨ (i = .bootstrap ∧ own = .sr)

/-- The write port leaves every cell but the one its identifier names (R25, R26). -/
theorem get_writeReg_other (s : State) (r : RegId) (v : Word) (c : RegCell) (h : c ≠ registerCell r s.supervisor) :
    (s.writeReg r v).regs.get c = s.regs.get c := by
  by_cases hr : r = .sr
  · subst hr
    rw [writeReg_sr]
    exact get_withSr c s.regs _ h
  · rw [writeReg_of_ne_sr s r v hr, withRegs_regs, get_set_other _ c v _ h]

/-- A register-writing command that completes changes its own cell only, and no memory (R25, R34, R175). -/
theorem effect_of_writesCell (i : Instr) (s u : State) (d : Word) (own : RegCell) (hw : WritesCell s i own)
    (h : Effect i s u d) : (∀ c, c ≠ own → u.regs.get c = s.regs.get c) ∧ u.mem = s.mem := by
  obtain ⟨code, v, r, rfl, hr, rfl⟩ | ⟨b, m, rfl, rfl⟩ | ⟨rfl, rfl⟩ := hw
  · obtain ⟨r', hr', rfl, -⟩ := h
    obtain rfl : r = r' := Option.some.inj (hr.symm.trans hr')
    exact ⟨get_writeReg_other s r v, writeReg_mem s r v⟩
  · obtain ⟨pos, -, rfl, -⟩ := h
    split
    · exact ⟨fun _ _ => rfl, rfl⟩
    · exact ⟨fun c hc => get_withSr c s.regs _ hc, rfl⟩
  · obtain ⟨rfl, -⟩ := h
    exact ⟨fun c hc => get_withSr c s.regs _ hc, rfl⟩

/-- Settles O55: the commands change nothing, or have their effect, which stays in their own cell. -/
theorem frameOfTheRegisterWritingCommands : Obligations.FrameOfTheRegisterWritingCommands := by
  unfold Obligations.FrameOfTheRegisterWritingCommands
  intro i s t own hw h
  have hlatch := fun d => exec_ok_keeps_latch i s t d h
  obtain ⟨hp, hi, ⟨hr, hm, hl⟩ | ⟨u, d, hu, hr, hm, hl⟩⟩ := exec_state_cases i s t h
  · rw [hr, hm, hl]
    exact ⟨fun _ _ => rfl, fun _ => rfl, hp, hi, fun _ => rfl, hlatch⟩
  · obtain ⟨hcells, hmem⟩ := effect_of_writesCell i s u d own hw hu
    rw [hr, hm, hl, hmem]
    exact ⟨hcells, effect_life i s u d hu, hp, hi, fun _ => rfl, hlatch⟩

/-! ### Well-formedness and the errors of a command's own fields -/

/-- The ban on two indirect operands passes every other pair (R157). -/
theorem checkNotBothIndirect_ok_iff (src dst : Operand) :
    checkNotBothIndirect src dst = .ok () ↔ ¬ (src.mode = .indirect ∧ dst.mode = .indirect) := by
  unfold checkNotBothIndirect
  cases src.mode <;> cases dst.mode <;> simp

/-- Checked operands are both indirect exactly when both mode codes are 2 (R91). -/
theorem bothIndirect_iff (p : Params) (w : Width) (sreg dreg : BitVec 5) (smode dmode : BitVec 2) (src dst : Operand)
    (hs : checkOperand p .source sreg smode w = .ok src) (hd : checkOperand p .destination dreg dmode w = .ok dst) :
    src.mode = .indirect ∧ dst.mode = .indirect ↔ smode = 2 ∧ dmode = 2 := by
  obtain ⟨-, hsm, -, -⟩ := checkOperand_ok _ _ _ _ _ _ hs
  obtain ⟨-, hdm, -, -⟩ := checkOperand_ok _ _ _ _ _ _ hd
  rw [modeOfCode_indirect smode src.mode hsm, modeOfCode_indirect dmode dst.mode hdm]

/-- A MOVE is well-formed when its fields name a width and suitable operands, not both indirect. -/
theorem wellFormed_move_iff (dreg : BitVec 5) (dmode : BitVec 2) (sreg : BitVec 5) (smode : BitVec 2) (c : BitVec 3) :
    (Instr.move dreg dmode sreg smode c).wellFormed = true ↔
      widthNamed c = true ∧ kindMatches sreg smode = true ∧ kindMatches dreg dmode = true ∧ ¬ (smode = 2 ∧ dmode = 2) := by
  have hmode (m : BitVec 2) : m.toNat = 2 ↔ m = 2 := @BitVec.toNat_inj _ m 2#2
  simp only [Instr.wellFormed, Bool.and_eq_true, Bool.not_eq_true', Bool.and_eq_false_iff, beq_eq_false_iff_ne, ne_eq,
    hmode, and_assoc, not_and_or]

/-- A checked operand's codes suit each other (R142). -/
theorem kindMatches_of_checkOperand_ok (p : Params) (role : Role) (reg : BitVec 5) (mode : BitVec 2) (w : Width) (op : Operand)
    (h : checkOperand p role reg mode w = .ok op) : kindMatches reg mode = true := by
  obtain ⟨hr, hm, hk, -⟩ := checkOperand_ok _ _ _ _ _ _ h
  exact (kindMatches_eq reg mode _ hm _ hr).trans hk

/-- The masks of the named positions are well-formed (R32). -/
theorem maskNamed_of_named : ∀ pos ∈ namedPositions, maskNamed (1#16 <<< pos) = true := by decide

/-- A command that completes is well-formed: it passed the checks of its fields. -/
theorem effect_wellFormed (i : Instr) (s u : State) (d : Word) (h : Effect i s u d) : i.wellFormed = true := by
  cases i with
  | bootstrap => rfl
  | initRegions => rfl
  | getReg reg => obtain ⟨r, hr, -, -⟩ := h; exact (registerNamed_iff reg).trans (by rw [hr]; rfl)
  | setReg reg data => obtain ⟨r, hr, -, -⟩ := h; exact (registerNamed_iff reg).trans (by rw [hr]; rfl)
  | getSrBit mask =>
    obtain ⟨pos, hp, -, -⟩ := h
    obtain ⟨hnamed, rfl⟩ := statusBitPos_ok mask pos hp
    exact maskNamed_of_named pos hnamed
  | setSrBit bit mask =>
    obtain ⟨pos, hp, -, -⟩ := h
    obtain ⟨hnamed, rfl⟩ := statusBitPos_ok mask pos hp
    exact maskNamed_of_named pos hnamed
  | memRead width addr => obtain ⟨w, hw, -, -⟩ := h; exact (widthNamed_iff width).trans (by rw [hw]; rfl)
  | memWrite width addr data => obtain ⟨w, m, hw, -, -, -⟩ := h; exact (widthNamed_iff width).trans (by rw [hw]; rfl)
  | move dreg dmode sreg smode c =>
    obtain ⟨w, src, dst, v, t, r, hw, hsrc, -, hdst, hboth, -, -, -⟩ := h
    refine (wellFormed_move_iff ..).mpr ⟨(widthNamed_iff c).trans (by rw [hw]; rfl), kindMatches_of_checkOperand_ok _ _ _ _ _ _ hsrc,
      kindMatches_of_checkOperand_ok _ _ _ _ _ _ hdst, ?_⟩
    rw [← bothIndirect_iff _ w _ _ _ _ src dst hsrc hdst]
    exact (checkNotBothIndirect_ok_iff src dst).mp hboth

/-- No error but a bus fault or INDIRECT_WIDTH. -/
def NoFieldError {α : Type} (x : Except Error α) : Prop := ∀ k, x = .error (.invariant k) → k = .indirectWidth

theorem noFieldError_ok {α : Type} (a : α) : NoFieldError (.ok a) := fun _ h => nomatch h

theorem noFieldError_busFault {α : Type} (a : Word) (w : Width) (dir : Dir) :
    NoFieldError (.error (.busFault a w dir) : Except Error α) := fun _ h => nomatch h

/-- Two checks in sequence without a field error. -/
theorem NoFieldError.bind {α β : Type} {x : Except Error α} {f : α → Except Error β} (hx : NoFieldError x)
    (hf : ∀ a, x = .ok a → NoFieldError (f a)) : NoFieldError (x.bind f) := by
  cases x with
  | error e => exact fun k h => hx k (by cases h; rfl)
  | ok a => exact hf a rfl

theorem noFieldError_checkRegister (c : BitVec 5) (h : registerNamed c = true) : NoFieldError (checkRegister c) := by
  obtain ⟨r, hr⟩ := Option.isSome_iff_exists.mp ((registerNamed_iff c).symm.trans h)
  rw [checkRegister_of_some c r hr]
  exact noFieldError_ok r

theorem noFieldError_checkWidth (c : BitVec 3) (h : widthNamed c = true) : NoFieldError (checkWidth c) := by
  obtain ⟨w, hw⟩ := Option.isSome_iff_exists.mp ((widthNamed_iff c).symm.trans h)
  rw [checkWidth_of_some c w hw]
  exact noFieldError_ok w

theorem noFieldError_statusBitPos (mask : BitVec 16) (h : maskNamed mask = true) : NoFieldError (statusBitPos mask) := by
  obtain ⟨pos, hp, hmask⟩ := List.any_eq_true.mp h
  have hlt := lt_of_mem_namedPositions pos hp
  have heq : mask = 1#16 <<< pos := BitVec.eq_of_toNat_eq (by
    rw [beq_iff_eq.mp hmask, BitVec.toNat_shiftLeft, BitVec.toNat_ofNat, Nat.one_mod_eq_one.mpr (by decide), Nat.one_shiftLeft,
      Nat.mod_eq_of_lt (Nat.pow_lt_pow_right (by decide) hlt)])
  rw [heq, statusBitPos_of_named pos hp]
  exact noFieldError_ok pos

theorem noFieldError_memRead (p : Params) (m : Memory) (a : Word) (w : Width) : NoFieldError (memRead p m a w) := by
  rw [memRead_eq]
  split
  · exact noFieldError_ok _
  · exact noFieldError_busFault a w .read

theorem noFieldError_memWrite (p : Params) (m : Memory) (a : Word) (w : Width) (v : Word) :
    NoFieldError (memWrite p m a w v) := by
  rw [memWrite_eq]
  split
  · exact noFieldError_ok _
  · exact noFieldError_busFault a w .write

/-- Codes that suit each other name a mode and a register (R89, R91). -/
theorem named_of_kindMatches : ∀ (reg : BitVec 5) (mode : BitVec 2), kindMatches reg mode = true →
    mode.toNat ≠ 3 ∧ ¬ 20 ≤ reg.toNat := by decide

/-- An operand whose codes suit each other fails at most the indirect width check (R143). -/
theorem noFieldError_checkOperand (p : Params) (role : Role) (reg : BitVec 5) (mode : BitVec 2) (w : Width)
    (h : kindMatches reg mode = true) : NoFieldError (checkOperand p role reg mode w) := by
  obtain ⟨hmode, hreg⟩ := named_of_kindMatches reg mode h
  rw [checkOperand_eq, if_neg hmode, if_neg hreg, if_neg (by rw [h]; decide)]
  split
  · exact fun k hk => by cases hk; rfl
  · exact noFieldError_ok _

theorem noFieldError_resolveSource (s : State) (op : Operand) (w : Width) : NoFieldError (resolveSource s op w) := by
  unfold resolveSource
  cases op.mode with
  | dataDirect => exact noFieldError_ok _
  | addressDirect => exact noFieldError_ok _
  | indirect => exact noFieldError_memRead _ _ _ _

theorem noFieldError_storeSized (loc : Location) (v : Word) (w : Width) (s : State) : NoFieldError (storeSized loc v w s) := by
  cases loc with
  | reg r old => exact noFieldError_ok _
  | mem a => exact (noFieldError_memWrite _ _ _ _ _).bind fun _ _ => noFieldError_ok _

/-- A well-formed MOVE takes no error but a bus fault or INDIRECT_WIDTH. -/
theorem noFieldError_moveCommand (dreg : BitVec 5) (dmode : BitVec 2) (sreg : BitVec 5) (smode : BitVec 2) (c : BitVec 3)
    (s : State) (h : (Instr.move dreg dmode sreg smode c).wellFormed = true) :
    NoFieldError (moveCommand dreg dmode sreg smode c s) := by
  obtain ⟨hwidth, hskind, hdkind, hboth⟩ := (wellFormed_move_iff ..).mp h
  refine (noFieldError_checkWidth c hwidth).bind fun w _ => (noFieldError_checkOperand _ _ sreg smode w hskind).bind fun src hsrc =>
    (noFieldError_resolveSource s src w).bind fun v _ => (noFieldError_checkOperand _ _ dreg dmode w hdkind).bind fun dst hdst => ?_
  rw [← bothIndirect_iff _ w _ _ _ _ src dst hsrc hdst] at hboth
  rw [(checkNotBothIndirect_ok_iff src dst).mpr hboth]
  exact (noFieldError_storeSized _ v w s).bind fun _ _ => noFieldError_ok _

/-- A well-formed command takes no error but a bus fault or INDIRECT_WIDTH. -/
theorem exec_noFieldError (i : Instr) (s : State) (h : i.wellFormed = true) :
    ∃ command, exec i s = perform command s ∧ NoFieldError (command s) := by
  cases i with
  | bootstrap => exact ⟨_, exec_bootstrap s, noFieldError_ok _⟩
  | initRegions => exact ⟨_, exec_initRegions s, noFieldError_ok _⟩
  | getReg reg => exact ⟨_, exec_getReg reg s, (noFieldError_checkRegister reg h).bind fun _ _ => noFieldError_ok _⟩
  | setReg reg data => exact ⟨_, exec_setReg reg data s, (noFieldError_checkRegister reg h).bind fun _ _ => noFieldError_ok _⟩
  | getSrBit mask =>
    have hbit : NoFieldError (s.srBitGet mask) := (noFieldError_statusBitPos mask h).bind fun _ _ => noFieldError_ok _
    exact ⟨_, exec_getSrBit mask s, hbit.bind fun _ _ => noFieldError_ok _⟩
  | setSrBit bit mask =>
    have hbit : NoFieldError (s.srBitSet mask bit) := (noFieldError_statusBitPos mask h).bind fun _ _ => noFieldError_ok _
    exact ⟨_, exec_setSrBit bit mask s, hbit.bind fun _ _ => noFieldError_ok _⟩
  | memRead width addr =>
    exact ⟨_, exec_memRead width addr s, (noFieldError_checkWidth width h).bind fun _ _ =>
      (noFieldError_memRead _ _ _ _).bind fun _ _ => noFieldError_ok _⟩
  | memWrite width addr data =>
    exact ⟨_, exec_memWrite width addr data s, (noFieldError_checkWidth width h).bind fun _ _ =>
      (noFieldError_memWrite _ _ _ _ _).bind fun _ _ => noFieldError_ok _⟩
  | move dreg dmode sreg smode c =>
    exact ⟨_, exec_move dreg dmode sreg smode c s, noFieldError_moveCommand dreg dmode sreg smode c s h⟩

/-- A well-formed command that answers INVARIANT answers INDIRECT_WIDTH (R96). -/
theorem subcode_of_wellFormed (i : Instr) (s t : State) (r : Response) (hh : s.halted = false) (h : i.wellFormed = true)
    (ht : exec i s = .next t) (hr : t.response = some r) (hst : r.status = 2) : r.subcode = 6 := by
  obtain ⟨command, hexec, hc⟩ := exec_noFieldError i s h
  obtain ⟨hhalt, -⟩ | ⟨-, e, he, rfl⟩ | ⟨-, u, d, -, rfl⟩ := perform_cases command s t (hexec.symm.trans ht)
  · exact nomatch hh.symm.trans hhalt
  · rw [raise_response] at hr
    cases hr
    cases e with
    | invariant k => rw [hc k he]; rfl
    | busFault a w dir => exact absurd hst (by simp [Response.ofError])
  · cases hr
    exact absurd hst (by simp [Response.ok])

/-- A command answered OK is well-formed (log 9). -/
theorem wellFormed_of_status_ok (i : Instr) (s t : State) (r : Response) (ht : exec i s = .next t) (hr : t.response = some r)
    (hst : r.status = 0) : i.wellFormed = true := by
  obtain ⟨-, rfl⟩ | ⟨-, e, -, rfl⟩ | ⟨-, u, d, hu, rfl⟩ := exec_cases i s t ht
  · cases hr
    exact absurd hst (by decide)
  · rw [raise_response] at hr
    cases hr
    exact absurd hst (ofError_status_ne_zero e)
  · exact effect_wellFormed i s u d hu

/-- Settles O53: a well-formed command passes the checks of its fields, and one that completes is well-formed. -/
theorem wellFormedCommandsRaiseNoFieldError : Obligations.WellFormedCommandsRaiseNoFieldError := by
  unfold Obligations.WellFormedCommandsRaiseNoFieldError
  intro i s t r hh ht hr
  refine ⟨fun hwf hst => subcode_of_wellFormed i s t r hh hwf ht hr hst, fun hill hst => ?_⟩
  exact nomatch hill.symm.trans (wellFormed_of_status_ok i s t r ht hr hst)

end Sys2Proof.Proofs
end

section
/-! PROOFS. The rules of the memory operations that the statements of spec/20_memory.md cite: MEM_READ and MEM_WRITE of a named
width (R57–R60, R130, R131), a read inside the bytes just written (R61), and where a completed command changes memory (R63). -/

namespace Sys2Proof.Proofs

open Sys2Proof Sys2Proof.Machine

/-! ### The two memory commands -/

/-- MEM_READ of a named width answers the sized read where the access is allowed, and takes its bus fault where not (R57, R60,
R130). -/
theorem exec_memRead_eq (s : State) (c : BitVec 3) (w : Width) (a : Word) (hh : s.halted = false)
    (hc : Width.ofCode c = some w) :
    exec (.memRead c a) s = .next (if AccessAllowed s.params a w .read
      then s.respond (.ok (Memory.readSized s.mem a.toNat w)) else s.raise (.busFault a w .read)) := by
  rw [exec_memRead, checkWidth_of_some c w hc]
  by_cases ha : AccessAllowed s.params a w .read
  · rw [if_pos ha]
    refine perform_ok _ s s _ hh ?_
    rw [Except.bind, memRead_eq, if_pos ha, Except.bind]
  · rw [if_neg ha]
    refine perform_error _ s _ hh ?_
    rw [Except.bind, memRead_eq, if_neg ha, Except.bind]

/-- The state that MEM_WRITE of an allowed access leaves (R58, R131). -/
def afterMemWrite (s : State) (a : Word) (w : Width) (v : Word) : State :=
  (s.withMem (Memory.writeBytes s.mem a.toNat (bigEndianBytes w v))).respond (.ok 0)

/-- MEM_WRITE of a named width does the sized write where the access is allowed, and takes its bus fault where not (R58, R60,
R131). -/
theorem exec_memWrite_eq (s : State) (c : BitVec 3) (w : Width) (a v : Word) (hh : s.halted = false)
    (hc : Width.ofCode c = some w) :
    exec (.memWrite c a v) s = .next (if AccessAllowed s.params a w .write
      then afterMemWrite s a w v else s.raise (.busFault a w .write)) := by
  rw [exec_memWrite, checkWidth_of_some c w hc]
  by_cases ha : AccessAllowed s.params a w .write
  · rw [if_pos ha]
    refine perform_ok _ s _ 0 hh ?_
    rw [Except.bind, memWrite_eq, if_pos ha, Except.bind]
  · rw [if_neg ha]
    refine perform_error _ s _ hh ?_
    rw [Except.bind, memWrite_eq, if_neg ha, Except.bind]

/-! ### The bytes of a sized write -/

/-- A sized write leaves every byte outside the access (R58, R63). -/
theorem readByte_sizedWrite_other (m : Memory) (a x : Nat) (w : Width) (v : Word) (h : x < a ∨ a + w.bytes ≤ x) :
    (m.writeBytes a (bigEndianBytes w v)).readByte x = m.readByte x :=
  readByte_writeBytes_other _ m a x (by rwa [length_bigEndianBytes])

/-- A sized write stores the low bytes of the value, the most significant at the lowest address (R58, R61). -/
theorem readByte_sizedWrite_same (m : Memory) (a i : Nat) (w : Width) (v : Word) (hm : m.wf) (ha : a + w.bytes ≤ capacity)
    (hi : i < w.bytes) :
    (m.writeBytes a (bigEndianBytes w v)).readByte (a + i) = v.extractLsb' (8 * (w.bytes - 1 - i)) 8 := by
  have hlen : i < (bigEndianBytes w v).length := by rwa [length_bigEndianBytes]
  rw [readByte_writeBytes_same _ m a i hm (by rwa [length_bigEndianBytes]) hlen, getElem_bigEndianBytes]

/-- A sized read inside the bytes just written answers those bytes of the value: of the `w` bytes it skips the first `k` and, by
the shift, the ones after its own (R57, R58, R61). -/
theorem readSized_sizedWrite (m : Memory) (a k : Nat) (w w' : Width) (v : Word) (hm : m.wf) (ha : a + w.bytes ≤ capacity)
    (hk : k + w'.bytes ≤ w.bytes) :
    (m.writeBytes a (bigEndianBytes w v)).readSized (a + k) w' = truncTo w' (v >>> (8 * (w.bytes - k - w'.bytes))) := by
  refine readSized_of_bytes _ _ w' _ fun i hi => ?_
  have hpos : 8 * (w.bytes - 1 - (k + i)) = 8 * (w.bytes - k - w'.bytes) + 8 * (w'.bytes - 1 - i) := by omega
  rw [Nat.add_assoc, readByte_sizedWrite_same m a (k + i) w v hm ha (by omega), hpos]
  refine BitVec.eq_of_getLsbD_eq fun j hj => ?_
  rw [BitVec.getLsbD_extractLsb', BitVec.getLsbD_extractLsb', BitVec.getLsbD_ushiftRight, Nat.add_assoc]

/-- MEM_READ inside the bytes that an allowed MEM_WRITE stored. -/
theorem exec_memRead_afterMemWrite (s : State) (c : BitVec 3) (w w' : Width) (a b v : Word) (k : Nat) (hh : s.halted = false)
    (hm : Memory.wf s.mem) (ha : a.toNat + w.bytes ≤ capacity) (hc : Width.ofCode c = some w') (hb : b.toNat = a.toNat + k)
    (hk : k + w'.bytes ≤ w.bytes) (hr : AccessAllowed s.params b w' .read) :
    exec (.memRead c b) (afterMemWrite s a w v) =
      .next ((afterMemWrite s a w v).respond (.ok (truncTo w' (v >>> (8 * (w.bytes - k - w'.bytes)))))) := by
  have hr' : AccessAllowed (afterMemWrite s a w v).params b w' .read := hr
  have hvalue : Memory.readSized (afterMemWrite s a w v).mem (a.toNat + k) w' =
      truncTo w' (v >>> (8 * (w.bytes - k - w'.bytes))) :=
    readSized_sizedWrite s.mem a.toNat k w w' v hm ha hk
  rw [exec_memRead_eq (afterMemWrite s a w v) c w' b hh hc, if_pos hr', hb, hvalue]

/-! ### Where a command changes memory -/

/-- What a command that completes does to memory: nothing, or one sized write, of just the bytes it stores to (R58, R147). -/
theorem effect_mem_cases (i : Instr) (s u : State) (d : Word) (h : Effect i s u d) :
    u.mem = s.mem ∨
    ∃ a w v, u.mem = Memory.writeBytes s.mem a (bigEndianBytes w v) ∧ ∀ x, a ≤ x → x < a + w.bytes → s.StoresTo i x := by
  cases i with
  | bootstrap => obtain ⟨rfl, -⟩ := h; exact .inl rfl
  | initRegions => obtain ⟨rfl, -⟩ := h; exact .inl rfl
  | getReg reg => obtain ⟨_, _, rfl, -⟩ := h; exact .inl rfl
  | setReg reg data => obtain ⟨r, _, rfl, -⟩ := h; exact .inl (writeReg_mem s r data)
  | getSrBit mask => obtain ⟨_, _, rfl, -⟩ := h; exact .inl rfl
  | setSrBit bit mask => obtain ⟨_, _, rfl, -⟩ := h; left; split <;> rfl
  | memRead width addr => obtain ⟨_, _, _, rfl⟩ := h; exact .inl rfl
  | memWrite width addr data =>
    obtain ⟨w, m, hw, hm, rfl, -⟩ := h
    obtain ⟨-, -, hok⟩ | ⟨-, herr⟩ := memWrite_cases s.params s.mem addr w data
    · cases hok.symm.trans hm
      refine .inr ⟨addr.toNat, w, data, rfl, fun x hlo hhi => ?_⟩
      rw [widthOfCode_bytes width w hw] at hhi
      exact ⟨hlo, hhi⟩
    · exact nomatch herr.symm.trans hm
  | move dreg dmode sreg smode width =>
    obtain ⟨w, rd, v, r, hw, hrd, -, -, -, ⟨-, -, rfl⟩ | ⟨hmode, -, -, rfl⟩⟩ := move_effect_cases _ _ _ _ _ _ _ _ h
    · exact .inl (writeReg_mem s rd r)
    · refine .inr ⟨(s.readReg rd).toNat, w, v, rfl, fun x hlo hhi => ?_⟩
      rw [widthOfCode_bytes width w hw] at hhi
      exact ⟨hmode, rd, hrd, hlo, hhi⟩

/-- A byte that a completed command does not store to reads as before (R63). -/
theorem effect_readByte (i : Instr) (s u : State) (d : Word) (x : Nat) (h : Effect i s u d) (hx : ¬ s.StoresTo i x) :
    Memory.readByte u.mem x = Memory.readByte s.mem x := by
  obtain hm | ⟨a, w, v, hm, hstores⟩ := effect_mem_cases i s u d h
  · rw [hm]
  · have hout : x < a ∨ a + w.bytes ≤ x := by
      by_contra hin
      exact hx (hstores x (by omega) (by omega))
    rw [hm, readByte_sizedWrite_other s.mem a x w v hout]

/-- The bytes a command stores to do not depend on the command port. -/
theorem storesTo_inbox (s : State) (rest : List Packet) (i : Instr) (x : Nat) :
    State.StoresTo { s with inbox := rest } i x ↔ s.StoresTo i x := Iff.rfl

/-- A byte that the command of a step does not store to reads after the step as before it (R63). -/
theorem step_readByte (s t : State) (x : Nat) (h : step s = .next t) (hx : ∀ i, s.Performs i → ¬ s.StoresTo i x) :
    Memory.readByte t.mem x = Memory.readByte s.mem x := by
  obtain ⟨-, rfl⟩ | ⟨p, rest, s', -, rfl, hcase⟩ := step_effect_cases s t h
  · rfl
  obtain ⟨-, rfl⟩ | ⟨-, e, -, rfl⟩ | ⟨-, i, u, d, hi, hu, rfl⟩ := hcase
  · rfl
  · rw [raise_mem]
  · exact effect_readByte i { s with inbox := rest } u d x hu (mt (storesTo_inbox s rest i x).mp (hx i hi))

end Sys2Proof.Proofs
end

section
/-! PROOFS. The statements of spec/20_memory.md: the two memory commands (R57–R62), where memory changes, over one step and over
every run (R63, R66), and the frames of the memory and reading commands. -/

namespace Sys2Proof.Proofs

open Sys2Proof Sys2Proof.Machine

/-! ### Where memory changes -/

/-- Settles O49, by induction on the number of steps: the first step keeps the byte, and so does the run after it. -/
theorem bytesKeepTheLastWriteOverEveryRun : Obligations.BytesKeepTheLastWriteOverEveryRun := by
  unfold Obligations.BytesKeepTheLastWriteOverEveryRun
  intro k
  induction k with
  | zero => intro s t x hrun _; cases hrun; rfl
  | succ k ih =>
    intro s t x hrun hnone
    obtain ⟨s₁, hstep⟩ := step_next s
    have hfirst : Memory.readByte s₁.mem x = Memory.readByte s.mem x :=
      step_readByte s s₁ x hstep fun i => hnone 0 s i k.succ_pos (run_zero s)
    have hrest : Memory.readByte t.mem x = Memory.readByte s₁.mem x :=
      ih s₁ t x ((run_succ k s s₁ hstep).symm.trans hrun) fun j u i hj hu =>
        hnone (j + 1) u i (Nat.succ_lt_succ hj) ((run_succ j s s₁ hstep).trans hu)
    exact hrest.trans hfirst

/-- Settles O48: were there no command storing to the byte, the step would keep it. -/
theorem memoryChangesOnlyWhereACommandStores : Obligations.MemoryChangesOnlyWhereACommandStores := by
  unfold Obligations.MemoryChangesOnlyWhereACommandStores
  intro s t x hstep hne
  by_contra hnone
  exact hne (step_readByte s t x hstep fun i hi hx => hnone ⟨i, hi, hx⟩)

/-! ### MEM_READ and MEM_WRITE -/

/-- Settles O25: the sized read at each of the three widths. -/
theorem memReadAnswersTheBytes : Obligations.MemReadAnswersTheBytes := by
  unfold Obligations.MemReadAnswersTheBytes
  intro s a hh byteAt
  refine ⟨fun ha => ?_, fun ha => ?_, fun ha => ?_⟩
  · rw [exec_memRead_eq s 1 .byte a hh rfl, if_pos ha]; rfl
  · rw [exec_memRead_eq s 2 .word a hh rfl, if_pos ha]; rfl
  · rw [exec_memRead_eq s 4 .long a hh rfl, if_pos ha]; rfl

/-- Settles O26: the sized write, inside a canonical store. -/
theorem memWriteStoresTheBytes : Obligations.MemWriteStoresTheBytes := by
  unfold Obligations.MemWriteStoresTheBytes
  intro s c w a v hh hm hc hallowed
  have hbounds : a.toNat + w.bytes ≤ capacity := hallowed.1
  refine ⟨Memory.writeBytes s.mem a.toNat (bigEndianBytes w v), ?_, ?_, ?_, ?_⟩
  · rw [exec_memWrite_eq s c w a v hh hc, if_pos hallowed]
    rfl
  · exact writeBytes_wf _ _ _ hm (by rwa [length_bigEndianBytes])
  · exact fun i hi => readByte_sizedWrite_same s.mem a.toNat i w v hm hbounds hi
  · exact fun x hx => readByte_sizedWrite_other s.mem a.toNat x w v hx

/-- Settles O27: both commands come to the bus fault of the access. -/
theorem forbiddenAccessesRaiseBusFaults : Obligations.ForbiddenAccessesRaiseBusFaults := by
  unfold Obligations.ForbiddenAccessesRaiseBusFaults
  intro s c w a v hh hc
  refine ⟨fun hn => ?_, fun hn => ?_⟩
  · rw [exec_memRead_eq s c w a hh hc, if_neg hn]
  · rw [exec_memWrite_eq s c w a v hh hc, if_neg hn]

/-- Settles O29: the read skips no byte of the write, and an access allowed to write is allowed to read. -/
theorem memoryRoundTrip : Obligations.MemoryRoundTrip := by
  unfold Obligations.MemoryRoundTrip
  intro s c w a v hh hm hc hallowed
  obtain ⟨hbounds, hregion, hrom⟩ := hallowed
  have hread : AccessAllowed s.params a w .read := ⟨hbounds, hregion, fun _ hdir => nomatch hdir⟩
  refine ⟨afterMemWrite s a w v, ?_, ?_⟩
  · rw [exec_memWrite_eq s c w a v hh hc, if_pos ⟨hbounds, hregion, hrom⟩]
  · have hvalue : BitVec.ofNat 32 (v.toNat % 2 ^ (8 * w.bytes)) = truncTo w (v >>> (8 * (w.bytes - 0 - w.bytes))) := by
      rw [Nat.sub_zero, Nat.sub_self, BitVec.ushiftRight_zero, ← toNat_truncTo, BitVec.ofNat_toNat, BitVec.setWidth_eq]
    rw [hvalue]
    exact exec_memRead_afterMemWrite s c w w a a v 0 hh hm hbounds hc rfl (by omega) hread

/-- Without STRICT_REGIONS a read need only be in bounds (R54, R56, R59). -/
theorem accessAllowed_read (p : Params) (a : Word) (w : Width) (hp : p.strictRegions = false)
    (h : a.toNat + w.bytes ≤ 0x1000000) : AccessAllowed p a w .read :=
  ⟨h, fun hs => (nomatch hp.symm.trans hs), fun _ hdir => nomatch hdir⟩

/-- The top byte of a longword has no bit above it to truncate. -/
theorem truncTo_byte_top (v : Word) : truncTo .byte (v >>> 24) = v >>> 24 := by
  apply BitVec.eq_of_toNat_eq
  have hlt : (v >>> 24).toNat < 2 ^ 8 := by
    rw [BitVec.toNat_ushiftRight, Nat.shiftRight_eq_div_pow]
    omega
  rw [toNat_truncTo]
  exact Nat.mod_eq_of_lt hlt

/-- Settles O30: each read lies inside the longword written. -/
theorem mixedWidthReadsAreBigEndian : Obligations.MixedWidthReadsAreBigEndian := by
  unfold Obligations.MixedWidthReadsAreBigEndian
  intro s t a v hh hm hp hallowed ht
  have hbounds : a.toNat + 4 ≤ 0x1000000 := hallowed.1
  rw [exec_memWrite_eq s 4 .long a v hh rfl, if_pos hallowed] at ht
  cases ht
  have hread (c : BitVec 3) (w : Width) (k : Nat) (hc : Width.ofCode c = some w) (hk : k + w.bytes ≤ 4) :
      exec (.memRead c (a + BitVec.ofNat 32 k)) (afterMemWrite s a .long v) =
        .next ((afterMemWrite s a .long v).respond (.ok (truncTo w (v >>> (8 * (4 - k - w.bytes)))))) := by
    have haddr : (a + BitVec.ofNat 32 k).toNat = a.toNat + k := by
      rw [BitVec.toNat_add, BitVec.toNat_ofNat]
      omega
    exact exec_memRead_afterMemWrite s c .long w a _ v k hh hm hbounds hc haddr hk
      (accessAllowed_read s.params _ w hp (by omega))
  refine ⟨?_, hread 1 .byte 3 rfl (by decide), hread 2 .word 1 rfl (by decide)⟩
  have htop := hread 1 .byte 0 rfl (by decide)
  rw [BitVec.add_zero] at htop
  rw [← truncTo_byte_top v]
  exact htop

/-! ### Frames -/

/-- INIT_REGIONS or one of the three reading commands. -/
def IsReading (i : Instr) : Prop :=
  i = .initRegions ∨ (∃ c, i = .getReg c) ∨ (∃ m, i = .getSrBit m) ∨ ∃ w a, i = .memRead w a

/-- A reading command that completes leaves the state but for its response (R57, R120, R122, R132). -/
theorem effect_of_isReading (i : Instr) (s u : State) (d : Word) (hi : IsReading i) (h : Effect i s u d) : u = s := by
  obtain rfl | ⟨c, rfl⟩ | ⟨m, rfl⟩ | ⟨w, a, rfl⟩ := hi
  · obtain ⟨rfl, -⟩ := h; rfl
  · obtain ⟨_, _, rfl, -⟩ := h; rfl
  · obtain ⟨_, _, rfl, -⟩ := h; rfl
  · obtain ⟨_, _, _, rfl⟩ := h; rfl

/-- Settles O54: with or without an error the register file, memory and the lifecycle stay. -/
theorem frameOfTheReadingCommands : Obligations.FrameOfTheReadingCommands := by
  unfold Obligations.FrameOfTheReadingCommands
  intro i s t hi h
  have hlatch := fun d => exec_ok_keeps_latch i s t d h
  obtain ⟨hp, hin, ⟨hr, hm, hl⟩ | ⟨u, d, hu, hr, hm, hl⟩⟩ := exec_state_cases i s t h
  · exact ⟨hr, hl, hp, hin, fun x => by rw [hm], hlatch⟩
  · obtain rfl := effect_of_isReading i s u d hi hu
    exact ⟨hr, hl, hp, hin, fun x => by rw [hm], hlatch⟩

/-- Settles O56: MEM_WRITE changes nothing, or has its effect, which is in memory, at the bytes it stores to. -/
theorem frameOfMemWrite : Obligations.FrameOfMemWrite := by
  unfold Obligations.FrameOfMemWrite
  intro s t c a v h
  have hlatch := fun d => exec_ok_keeps_latch _ s t d h
  obtain ⟨hp, hi, ⟨hr, hm, hl⟩ | ⟨u, d, hu, hr, hm, hl⟩⟩ := exec_state_cases _ s t h
  · exact ⟨hr, hl, hp, hi, fun x _ => by rw [hm], hlatch⟩
  · have hbytes (x : Nat) (hx : x < a.toNat ∨ a.toNat + c.toNat ≤ x) :
        Memory.readByte t.mem x = Memory.readByte s.mem x := by
      rw [hm]
      refine effect_readByte _ s u d x hu fun hstores => ?_
      obtain ⟨hlo, hhi⟩ := hstores
      omega
    obtain ⟨_, _, -, -, rfl, -⟩ := hu
    exact ⟨hr, hl, hp, hi, hbytes, hlatch⟩

end Sys2Proof.Proofs
end

section
/-! PROOFS. The decoder of spec/30_encoding.md: what it answers on the packet of a command, which packets it answers a command
on, and the masks of the opcode table in numbers (R82–R88, R93, R94, R99). -/

namespace Sys2Proof.Proofs

open Sys2Proof Sys2Proof.Machine

/-! ### The fields of a word put together from fields -/

/-- The three fields of a word. -/
theorem extractLsb'_append_append {k m n : Nat} (x : BitVec k) (y : BitVec m) (z : BitVec n) :
    (x ++ y ++ z).extractLsb' (m + n) k = x ∧ (x ++ y ++ z).extractLsb' n m = y ∧ (x ++ y ++ z).extractLsb' 0 n = z := by
  refine ⟨?_, ?_, BitVec.extractLsb'_append_eq_right⟩
  · rw [BitVec.extractLsb'_append_eq_of_le (Nat.le_add_left n m), Nat.add_sub_cancel]
    exact BitVec.extractLsb'_append_eq_left
  · rw [BitVec.extractLsb'_append_eq_of_le (Nat.le_refl n), Nat.sub_self]
    exact BitVec.extractLsb'_append_eq_right

/-- The fields of format S with BIT (R86). -/
theorem fields_setSrBit (bit : Bool) (mask : BitVec 16) :
    let word := (encode (.setSrBit bit mask)).cmd
    word.extractLsb' 28 4 = 0x5#4 ∧ word.extractLsb' 17 11 = 0#11 ∧ word.getLsbD 16 = bit ∧ word.extractLsb' 0 16 = mask := by
  refine ⟨?_, ?_, ?_, BitVec.extractLsb'_append_eq_right⟩
  all_goals rw [encode]
  · repeat rw [BitVec.extractLsb'_append_eq_of_le (by decide)]
    rfl
  · repeat rw [BitVec.extractLsb'_append_eq_of_le (by decide)]
    rfl
  · rw [BitVec.getLsbD_append, BitVec.getLsbD_append]
    cases bit <;> rfl

/-- The fields of format V (R88): the fields below the one sought are cut off. -/
theorem fields_move (dreg : BitVec 5) (dmode : BitVec 2) (sreg : BitVec 5) (smode : BitVec 2) (width : BitVec 3) :
    let word := (encode (.move dreg dmode sreg smode width)).cmd
    word.extractLsb' 28 4 = 0x8#4 ∧ word.extractLsb' 17 11 = 0#11 ∧ word.extractLsb' 12 5 = dreg ∧
      word.extractLsb' 10 2 = dmode ∧ word.extractLsb' 5 5 = sreg ∧ word.extractLsb' 3 2 = smode ∧
      word.extractLsb' 0 3 = width := by
  refine ⟨?_, ?_, ?_, ?_, ?_, ?_, BitVec.extractLsb'_append_eq_right⟩
  all_goals
    rw [encode]
    repeat rw [BitVec.extractLsb'_append_eq_of_le (by decide)]
  · rfl
  · rfl
  all_goals exact BitVec.extractLsb'_append_eq_right

/-! ### Decoding -/

/-- The decoder answers a command on its word with the operand words that it uses, whatever stands in the others (R80, R99). -/
theorem decode_encode_operands (i : Instr) (a d : Word) (haddr : i.usesAddr = true → (encode i).addr = a)
    (hdata : i.usesData = true → (encode i).data = d) : decode ⟨(encode i).cmd, a, d⟩ = .ok i := by
  cases i with
  | bootstrap =>
    have hop : (encode .bootstrap).cmd.extractLsb' 28 4 = 0x0#4 := rfl
    have hr : (encode .bootstrap).cmd.extractLsb' 0 28 = 0#28 := rfl
    rw [decode, hop, hr]
    exact if_pos rfl
  | initRegions =>
    have hop : (encode .initRegions).cmd.extractLsb' 28 4 = 0x1#4 := rfl
    have hr : (encode .initRegions).cmd.extractLsb' 0 28 = 0#28 := rfl
    rw [decode, hop, hr]
    exact if_pos rfl
  | getReg reg =>
    obtain ⟨hop, hr, hreg⟩ := extractLsb'_append_append 0x2#4 0#23 reg
    rw [decode, encode, hop, hr, hreg]
    exact if_pos rfl
  | setReg reg data =>
    obtain rfl := hdata rfl
    obtain ⟨hop, hr, hreg⟩ := extractLsb'_append_append 0x3#4 0#23 reg
    rw [decode, encode, hop, hr, hreg]
    exact if_pos rfl
  | getSrBit mask =>
    obtain ⟨hop, hr, hmask⟩ := extractLsb'_append_append 0x4#4 0#12 mask
    rw [decode, encode, hop, hr, hmask]
    exact if_pos rfl
  | setSrBit bit mask =>
    obtain ⟨hop, hr, hbit, hmask⟩ := fields_setSrBit bit mask
    rw [decode, hop, hr, hbit, hmask]
    exact if_pos rfl
  | memRead width addr =>
    obtain rfl := haddr rfl
    obtain ⟨hop, hr, hwidth⟩ := extractLsb'_append_append 0x6#4 0#25 width
    rw [decode, encode, hop, hr, hwidth]
    exact if_pos rfl
  | memWrite width addr data =>
    obtain rfl := haddr rfl
    obtain rfl := hdata rfl
    obtain ⟨hop, hr, hwidth⟩ := extractLsb'_append_append 0x7#4 0#25 width
    rw [decode, encode, hop, hr, hwidth]
    exact if_pos rfl
  | move dreg dmode sreg smode width =>
    obtain ⟨hop, hr, hdreg, hdmode, hsreg, hsmode, hwidth⟩ := fields_move dreg dmode sreg smode width
    rw [decode, hop, hr, hdreg, hdmode, hsreg, hsmode, hwidth]
    exact if_pos rfl

/-- The word of a number that is a word's. -/
theorem ofNat_eq_of_toNat_eq {n k : Nat} {x : BitVec n} (h : x.toNat = k) : BitVec.ofNat n k = x := by
  rw [← h, BitVec.ofNat_toNat, BitVec.setWidth_eq]

/-- A bit as a field of one bit. -/
theorem ofBool_getLsbD {n : Nat} (x : BitVec n) (j : Nat) : BitVec.ofBool (x.getLsbD j) = x.extractLsb' j 1 := by
  refine BitVec.eq_of_getLsbD_eq fun i hi => ?_
  obtain rfl : i = 0 := by omega
  rw [BitVec.getLsbD_extractLsb', BitVec.getLsbD_ofBool]
  simp

/-- A packet that decodes to a command is the packet of that command, but for the operand words that it does not use: in each
format the fields put together again, the reserved one 0, are the word (R83–R88). -/
theorem encode_of_decode (p : Packet) (i : Instr) (h : decode p = .ok i) :
    (encode i).cmd = p.cmd ∧ (i.usesAddr = true → (encode i).addr = p.addr) ∧
      (i.usesData = true → (encode i).data = p.data) := by
  unfold decode at h
  split at h
  case h_10 => cases h
  all_goals
    next hop =>
    obtain ⟨hreserved, rfl⟩ := whenClear_ok _ _ _ h
    have hop : BitVec.ofNat 4 _ = p.cmd.extractLsb' 28 4 := ofNat_eq_of_toNat_eq hop
    have hreserved : BitVec.ofNat _ 0 = _ := hreserved.symm
    constructor
    · rw [encode, hop, hreserved]
      simp only [ofBool_getLsbD, BitVec.extractLsb'_append_extractLsb'_eq_extractLsb']
      exact BitVec.extractLsb'_eq_self
    · simp [encode, Instr.usesAddr, Instr.usesData]

/-- A packet decodes to a command exactly if it is that command's packet, but for the operand words that it does not use. -/
theorem decode_ok_iff (p : Packet) (i : Instr) :
    decode p = .ok i ↔ (encode i).cmd = p.cmd ∧ (i.usesAddr = true → (encode i).addr = p.addr) ∧
      (i.usesData = true → (encode i).data = p.data) := by
  refine ⟨encode_of_decode p i, fun ⟨hcmd, haddr, hdata⟩ => ?_⟩
  have h := decode_encode_operands i p.addr p.data haddr hdata
  rwa [hcmd] at h

/-! ### Which words are command words -/

/-- OP is one of the nine of R83, and the bits that its format reserves are 0 (R84–R88). -/
def FitsFormat (op low : Nat) : Prop :=
  ((op = 0 ∨ op = 1) ∧ low = 0) ∨ ((op = 2 ∨ op = 3) ∧ low / 2 ^ 5 = 0) ∨ (op = 4 ∧ low / 2 ^ 16 = 0) ∨
    ((op = 5 ∨ op = 8) ∧ low / 2 ^ 17 = 0) ∨ ((op = 6 ∨ op = 7) ∧ low / 2 ^ 3 = 0)

/-- The check of reserved bits passes when the field is 0 (R94). -/
theorem exists_whenClear_iff {n : Nat} (reserved : BitVec n) (i : Instr) :
    (∃ j, whenClear reserved i = .ok j) ↔ reserved.toNat = 0 := by
  rw [show reserved.toNat = 0 ↔ reserved = 0 from BitVec.toNat_inj (y := 0#n)]
  exact ⟨fun ⟨j, h⟩ => (whenClear_ok reserved i j h).1, fun h => ⟨i, if_pos h⟩⟩

/-- The decoder answers a command exactly on the words that fit the format of their OP (R93, R94). -/
theorem exists_decode_iff (p : Packet) :
    (∃ i, decode p = .ok i) ↔ FitsFormat (p.cmd.toNat / 2 ^ 28) (p.cmd.toNat % 2 ^ 28) := by
  have hlt := p.cmd.isLt
  have hfield (start len : Nat) : (p.cmd.extractLsb' start len).toNat = p.cmd.toNat / 2 ^ start % 2 ^ len := by
    rw [BitVec.extractLsb'_toNat, Nat.shiftRight_eq_div_pow]
  unfold FitsFormat decode
  rw [hfield]
  split
  case h_10 =>
    simp only [imp_false] at *
    exact iff_of_false (fun ⟨_, h⟩ => nomatch h) (by omega)
  all_goals
    rw [exists_whenClear_iff, hfield]
    omega

/-- A row of the opcode table whose mask keeps the bits from `n` on, in numbers. -/
theorem and_mask_eq_iff (k n : Nat) (hi : BitVec k) (x : BitVec (k + n)) :
    x &&& (BitVec.allOnes k ++ 0#n) = hi ++ 0#n ↔ x.toNat / 2 ^ n = hi.toNat := by
  have hx : x.extractLsb' n k ++ x.extractLsb' 0 n = x := by
    rw [BitVec.extractLsb'_append_extractLsb'_eq_extractLsb' (Nat.zero_add n).symm]
    exact BitVec.extractLsb'_eq_self
  have hmask := Laws.EncodesInRow.append_and_mask (x.extractLsb' n k) (x.extractLsb' 0 n)
  have hlt : x.toNat / 2 ^ n < 2 ^ k := Nat.div_lt_of_lt_mul ((Nat.pow_add 2 k n ▸ x.isLt).trans_eq (Nat.mul_comm _ _))
  rw [hx] at hmask
  rw [hmask, BitVec.append_left_inj, ← BitVec.toNat_inj, BitVec.extractLsb'_toNat, Nat.shiftRight_eq_div_pow,
    Nat.mod_eq_of_lt hlt]

end Sys2Proof.Proofs
end

section
/-! PROOFS. The statements of spec/30_encoding.md: the round trip of packets and commands (R80–R88, R99), the encodings that are
no command (R93, R94), the response packet (R81, R95–R97), and the field codes that raise an error (R89, R90). -/

namespace Sys2Proof.Proofs

open Sys2Proof Sys2Proof.Machine

/-! ### Encoding and decoding -/

/-- Settles O2: the packet of a command has its own word and its own operand words. -/
theorem decodeOfEncodeIsTheCommand : Obligations.DecodeOfEncodeIsTheCommand := by
  unfold Obligations.DecodeOfEncodeIsTheCommand
  exact fun i => (decode_ok_iff (encode i) i).mpr ⟨rfl, fun _ => rfl, fun _ => rfl⟩

/-- Settles O3: the fields of a word that decodes are the word. -/
theorem encodeOfDecodeIsThePacket : Obligations.EncodeOfDecodeIsThePacket := by
  unfold Obligations.EncodeOfDecodeIsThePacket
  exact fun p i => (decode_ok_iff p i).mp

/-- A step that takes a packet just offered, which decodes to a command, performs the command (log 4). -/
theorem step_offer_of_decode_ok (s : State) (p : Packet) (i : Instr) (h : decode p = .ok i) : step (s.offer p) = exec i s :=
  step_of_decode_ok (s.offer p) p s.inbox i rfl h

/-- Settles O4: both packets decode to the command, so both steps perform it. -/
theorem unusedOperandWordsAreIgnored : Obligations.UnusedOperandWordsAreIgnored := by
  unfold Obligations.UnusedOperandWordsAreIgnored
  intro s p i a d h p'
  have hp' : decode p' = .ok i := by
    obtain ⟨hcmd, haddr, hdata⟩ := (decode_ok_iff p i).mp h
    exact (decode_ok_iff p' i).mpr
      ⟨hcmd, fun hu => (haddr hu).trans (if_pos hu).symm, fun hu => (hdata hu).trans (if_pos hu).symm⟩
  exact ⟨hp', (step_offer_of_decode_ok s p' i hp').trans (step_offer_of_decode_ok s p i h).symm⟩

/-- Settles O5: each row, like each format, fixes the number of the word's bits above its fields. -/
theorem commandWordsAreTheTableRows : Obligations.CommandWordsAreTheTableRows := by
  unfold Obligations.CommandWordsAreTheTableRows
  intro p
  have h0 : p.cmd &&& 0xFFFFFFFF = 0x00000000 ↔ p.cmd.toNat / 2 ^ 0 = 0x0 := and_mask_eq_iff 32 0 0x0 p.cmd
  have h1 : p.cmd &&& 0xFFFFFFFF = 0x10000000 ↔ p.cmd.toNat / 2 ^ 0 = 0x10000000 := and_mask_eq_iff 32 0 0x10000000 p.cmd
  have h2 : p.cmd &&& 0xFFFFFFE0 = 0x20000000 ↔ p.cmd.toNat / 2 ^ 5 = 0x1000000 := and_mask_eq_iff 27 5 0x1000000 p.cmd
  have h3 : p.cmd &&& 0xFFFFFFE0 = 0x30000000 ↔ p.cmd.toNat / 2 ^ 5 = 0x1800000 := and_mask_eq_iff 27 5 0x1800000 p.cmd
  have h4 : p.cmd &&& 0xFFFF0000 = 0x40000000 ↔ p.cmd.toNat / 2 ^ 16 = 0x4000 := and_mask_eq_iff 16 16 0x4000 p.cmd
  have h5 : p.cmd &&& 0xFFFE0000 = 0x50000000 ↔ p.cmd.toNat / 2 ^ 17 = 0x2800 := and_mask_eq_iff 15 17 0x2800 p.cmd
  have h6 : p.cmd &&& 0xFFFFFFF8 = 0x60000000 ↔ p.cmd.toNat / 2 ^ 3 = 0xC000000 := and_mask_eq_iff 29 3 0xC000000 p.cmd
  have h7 : p.cmd &&& 0xFFFFFFF8 = 0x70000000 ↔ p.cmd.toNat / 2 ^ 3 = 0xE000000 := and_mask_eq_iff 29 3 0xE000000 p.cmd
  have h8 : p.cmd &&& 0xFFFE0000 = 0x80000000 ↔ p.cmd.toNat / 2 ^ 17 = 0x4000 := and_mask_eq_iff 15 17 0x4000 p.cmd
  rw [exists_decode_iff, FitsFormat, h0, h1, h2, h3, h4, h5, h6, h7, h8]
  omega

/-- Settles O1, by evaluating the decoder on each of the fixed packets. -/
theorem wordsOfTheSpecDecode : Obligations.WordsOfTheSpecDecode := by
  unfold Obligations.WordsOfTheSpecDecode
  decide

/-! ### Encodings that are no command -/

/-- A word that fits no format is rejected (R93, R94). -/
theorem decode_error_of_not_fits (p : Packet) (h : ¬ FitsFormat (p.cmd.toNat / 2 ^ 28) (p.cmd.toNat % 2 ^ 28)) :
    ∃ e, decode p = .error e := by
  cases hd : decode p with
  | ok i => exact absurd ((exists_decode_iff p).mp ⟨i, hd⟩) h
  | error e => exact ⟨e, rfl⟩

/-- Settles O6: the decoder rejects the word, and the rejection is the error INVALID_COMMAND. -/
theorem reservedEncodingsRaiseInvalidCommand : Obligations.ReservedEncodingsRaiseInvalidCommand := by
  unfold Obligations.ReservedEncodingsRaiseInvalidCommand
  intro s p rest hinbox hrun op low hreserved
  have hfits : ¬ FitsFormat op low := by unfold FitsFormat; omega
  obtain ⟨e, he⟩ := decode_error_of_not_fits p hfits
  rw [step_of_decode_error s p rest e hinbox he]
  exact perform_error _ { s with inbox := rest } (.invariant .invalidCommand) hrun rfl

/-! ### Responses -/

/-- The fields of a response that its STATUS leaves unused are 0, and SUBCODE names a kind where it is used (R81, R96). -/
structure FieldsFitStatus (r : Response) : Prop where
  rdata : r.status ≠ 0 → r.rdata = 0
  subcode : r.status ≠ 2 → r.subcode = 0
  kind : r.status = 2 → 1 ≤ r.subcode.toNat ∧ r.subcode.toNat ≤ 8
  busFault : r.status ≠ 1 → r.faddr = 0 ∧ r.fwidth = 0 ∧ r.fdir = 0

theorem fieldsFitStatus_ok (d : Word) : FieldsFitStatus (.ok d) :=
  ⟨fun h => absurd rfl h, fun _ => rfl, fun h => (nomatch h), fun _ => ⟨rfl, rfl, rfl⟩⟩

theorem fieldsFitStatus_halted : FieldsFitStatus .halted :=
  ⟨fun _ => rfl, fun _ => rfl, fun h => (nomatch h), fun _ => ⟨rfl, rfl, rfl⟩⟩

/-- The subcodes are 1 to 8 (R96). -/
theorem subcode_bounds (k : InvariantKind) : 1 ≤ k.subcode.toNat ∧ k.subcode.toNat ≤ 8 := by
  cases k <;> decide

theorem fieldsFitStatus_ofError (e : Error) : FieldsFitStatus (.ofError e) := by
  cases e with
  | invariant k => exact ⟨fun _ => rfl, fun h => absurd rfl h, fun _ => subcode_bounds k, fun _ => ⟨rfl, rfl, rfl⟩⟩
  | busFault a w dir => exact ⟨fun _ => rfl, fun _ => rfl, fun h => (nomatch h), fun h => absurd rfl h⟩

/-- No error has a datum (R81). -/
theorem ofError_rdata (e : Error) : (Response.ofError e).rdata = 0 := by
  cases e <;> rfl

/-- Only GET_REG, GET_SR_BIT and MEM_READ complete with a datum (R81). -/
theorem effect_datum (i : Instr) (s u : State) (d : Word) (h : Effect i s u d) (hreg : ∀ c, i ≠ .getReg c)
    (hbit : ∀ m, i ≠ .getSrBit m) (hmem : ∀ w a, i ≠ .memRead w a) : d = 0 := by
  cases i with
  | bootstrap => obtain ⟨-, rfl⟩ := h; rfl
  | initRegions => obtain ⟨-, rfl⟩ := h; rfl
  | getReg reg => exact absurd rfl (hreg reg)
  | setReg reg data => obtain ⟨_, -, -, rfl⟩ := h; rfl
  | getSrBit mask => exact absurd rfl (hbit mask)
  | setSrBit bit mask => obtain ⟨_, -, -, rfl⟩ := h; rfl
  | memRead width addr => exact absurd rfl (hmem width addr)
  | memWrite width addr data => obtain ⟨_, _, -, -, -, rfl⟩ := h; rfl
  | move dreg dmode sreg smode width => obtain ⟨_, _, _, _, _, _, -, -, -, -, -, -, -, rfl⟩ := h; rfl

/-- Settles O9: the packet is answered HALTED, or with an error, or with the datum of the command it decodes to. -/
theorem everyCommandIsAnsweredOnce : Obligations.EveryCommandIsAnsweredOnce := by
  unfold Obligations.EveryCommandIsAnsweredOnce
  intro s p rest hinbox
  suffices h : ∃ t r, step s = .next t ∧ t.inbox = rest ∧ t.response = some r ∧ FieldsFitStatus r ∧
      ∀ i, decode p = .ok i →
        (∀ c, i ≠ .getReg c) → (∀ m, i ≠ .getSrBit m) → (∀ w a, i ≠ .memRead w a) → r.rdata = 0 by
    obtain ⟨t, r, hstep, hrest, hresponse, hfits, hdatum⟩ := h
    exact ⟨t, r, hstep, hrest, hresponse, hfits.rdata, hdatum, hfits.subcode, hfits.kind, hfits.busFault⟩
  obtain ⟨t, hstep⟩ := step_next s
  obtain ⟨hnone, -⟩ | ⟨p', rest', s', hinbox', rfl, hcase⟩ := step_effect_cases s t hstep
  · exact nomatch hinbox.symm.trans hnone
  obtain ⟨rfl, rfl⟩ : p = p' ∧ rest = rest' := List.cons.inj (hinbox.symm.trans hinbox')
  obtain ⟨-, rfl⟩ | ⟨-, e, -, rfl⟩ | ⟨-, i, u, d, ⟨-, p', rest', hinbox', hi⟩, hu, rfl⟩ := hcase
  · exact ⟨_, .halted, hstep, rfl, rfl, fieldsFitStatus_halted, fun _ _ _ _ _ => rfl⟩
  · exact ⟨_, .ofError e, hstep, raise_inbox _ e, raise_response _ e, fieldsFitStatus_ofError e,
      fun _ _ _ _ _ => ofError_rdata e⟩
  · obtain ⟨rfl, rfl⟩ : p = p' ∧ rest = rest' := List.cons.inj (hinbox.symm.trans hinbox')
    obtain ⟨-, -, -, hkeeps, -⟩ := effect_keeps i _ u d hu
    refine ⟨_, .ok d, hstep, hkeeps, rfl, fieldsFitStatus_ok d, fun j hj => ?_⟩
    obtain rfl : i = j := Except.ok.inj (hi.symm.trans hj)
    exact effect_datum i _ u d hu

/-- Settles O10: the subcodes are those listed, and only a recoverable bus fault is not latched. -/
theorem errorsAreReportedAndLatched : Obligations.ErrorsAreReportedAndLatched := by
  unfold Obligations.ErrorsAreReportedAndLatched
  intro s
  constructor
  · intro kn hkn
    have hsubcode : kn.1.subcode = kn.2 := by
      revert kn
      decide
    rw [raise_of_latched s (.invariant kn.1) (.inl rfl), ← hsubcode]
    rfl
  · intro a w dir r
    have hr : Response.ofError (.busFault a w dir) = r := by cases dir <;> rfl
    rw [← hr]
    split
    · next hp => exact raise_of_recoverable s _ rfl hp
    · next hp => exact raise_of_latched s _ (.inr (Bool.eq_false_of_not_eq_true hp))

/-! ### Field codes that raise an error -/

/-- A code other than 1, 2 and 4 fails the width check (R90). -/
theorem checkWidth_of_invalid : ∀ c ∈ [0#3, 3, 5, 6, 7], checkWidth c = .error (.invariant .invalidWidth) := by decide

/-- Settles O28: the width check comes first in all three commands. -/
theorem invalidWidthsRaise : Obligations.InvalidWidthsRaise := by
  unfold Obligations.InvalidWidthsRaise
  refine ⟨rfl, rfl, rfl, widthOfCode_bytes, fun s c a v dreg sreg dmode smode hrun hc => ?_⟩
  have hcheck := checkWidth_of_invalid c hc
  rw [exec_memRead, exec_memWrite, exec_move]
  refine ⟨perform_error _ s _ hrun ?_, perform_error _ s _ hrun ?_, perform_error _ s _ hrun ?_⟩
  · rw [hcheck, Except.bind]
  · rw [hcheck, Except.bind]
  · rw [moveCommand, hcheck, error_bind]

/-- Settles O16: the register check comes first in both commands. -/
theorem unnamedRegisterCodesRaise : Obligations.UnnamedRegisterCodesRaise := by
  unfold Obligations.UnnamedRegisterCodesRaise
  intro s c v hrun hc
  rw [exec_getReg, exec_setReg, checkRegister_of_ge c hc]
  exact ⟨perform_error _ s _ hrun rfl, perform_error _ s _ hrun rfl⟩

end Sys2Proof.Proofs
end

section
/-! PROOFS. The rules of MOVE that the statements of spec/43_addressing_modes.md cite: the flags in the terms of R160, a MOVE
whose operands pass their checks, into a register and into memory (R144–R148, R155), and what a completed MOVE leaves alone. -/

namespace Sys2Proof.Proofs

open Sys2Proof Sys2Proof.Machine

/-! ### The flags -/

/-- N, in the terms of R160. -/
theorem flagN_eq (p : Params) (r : Word) (w : Width) :
    flagN p r w = if p.nflagBit7Only then r.getLsbD 7 else r.getLsbD (8 * w.bytes - 1) := by
  have hsign : 8 * w.bytes - 1 < 8 * w.bytes := by have := bytes_pos w; omega
  rw [flagN, getLsbD_truncTo, decide_eq_true hsign, Bool.true_and]

/-- Z, in the terms of R160. -/
theorem flagZ_eq (p : Params) (r : Word) (w : Width) :
    flagZ p r w = (p.zflagAlwaysSet || decide (r.toNat % 2 ^ (8 * w.bytes) = 0)) := by
  have hzero : (truncTo w r == 0) = decide (r.toNat % 2 ^ (8 * w.bytes) = 0) := by
    rw [← toNat_truncTo, Bool.eq_iff_iff, beq_iff_eq, decide_eq_true_iff]
    exact BitVec.toNat_inj.symm
  rw [flagZ, hzero]
  cases p.zflagAlwaysSet <;> rfl

/-- The flag unit leaves the SR of R160. -/
theorem flagsAfterMove_moveFlags (p : Params) (r : Word) (w : Width) (sr : BitVec 16) :
    FlagsAfterMove p r w sr (moveFlags p r w sr) := by
  refine ⟨?_, ?_, ?_, ?_, fun j hlo hj => getLsbD_moveFlags_of_gt p r w sr j hlo hj⟩
  · exact getLsbD_moveFlags p r w sr 0 (by decide)
  · exact getLsbD_moveFlags p r w sr 1 (by decide)
  · exact (getLsbD_moveFlags p r w sr 2 (by decide)).trans (flagZ_eq p r w)
  · exact (getLsbD_moveFlags p r w sr 3 (by decide)).trans (flagN_eq p r w)

/-- The flags depend on the result at the width only (R160). -/
theorem moveFlags_truncTo (p : Params) (v : Word) (w : Width) (sr : BitVec 16) :
    moveFlags p (truncTo w v) w sr = moveFlags p v w sr := by
  have hpos := bytes_pos w
  have hbit (j : Nat) (hj : j < 8 * w.bytes) : (truncTo w v).getLsbD j = v.getLsbD j := by
    rw [getLsbD_truncTo, decide_eq_true hj, Bool.true_and]
  have hN : flagN p (truncTo w v) w = flagN p v w := by
    rw [flagN_eq, flagN_eq, hbit 7 (by omega), hbit (8 * w.bytes - 1) (by omega)]
  have hZ : flagZ p (truncTo w v) w = flagZ p v w := by
    rw [flagZ_eq, flagZ_eq, toNat_truncTo, Nat.mod_mod]
  rw [moveFlags, moveFlags, hN, hZ]

/-! ### A register stored back -/

/-- The merge of a value into itself (R146). -/
theorem merge_self (v : Word) (w : Width) : merge v v w = v :=
  BitVec.eq_of_getLsbD_eq fun j hj => by rw [getLsbD_merge v v w j hj, ite_self]

/-- A cell other than SR stored back. -/
theorem set_get_self (c : RegCell) (r : Regs) (h : c ≠ .sr) : r.set c (r.get c) = r := by
  cases c with
  | sr => exact absurd rfl h
  | _ => rfl

/-- A register other than SR written with what it reads as (R24, R25). -/
theorem writeReg_readReg_self (s : State) (r : RegId) (h : r ≠ .sr) : s.writeReg r (s.readReg r) = s := by
  rw [writeReg_of_ne_sr s r _ h, readReg_of_ne_sr s r h, set_get_self _ _ fun hc => h ((registerCell_eq_sr r _).mp hc)]
  rfl

/-! ### Operands that pass their checks -/

/-- The register and the mode that the codes of a checked operand name (R89, R91). -/
def namedOperand (reg : BitVec 5) (mode : BitVec 2) : Operand :=
  ⟨(RegId.ofCode reg).getD .pc, (Mode.ofCode mode).getD .indirect⟩

/-- The register codes that suit each mode (R142). -/
theorem kindMatches_of_codes : ∀ (reg : BitVec 5) (mode : BitVec 2), (RegId.ofCode reg).isSome = true →
    (mode = 0 ∧ 4 ≤ reg.toNat ∧ reg.toNat ≤ 11) ∨ (mode = 1 ∧ 12 ≤ reg.toNat) ∨ (mode = 2 ∧ 12 ≤ reg.toNat) →
    kindMatches reg mode = true := by decide

/-- No code that suits a mode names SR (R142). -/
theorem ofCode_ne_sr_of_kindMatches : ∀ (reg : BitVec 5) (mode : BitVec 2), kindMatches reg mode = true →
    RegId.ofCode reg ≠ some .sr := by decide

/-- A source in the terms of R142–R144 passes its checks, and is read as its value. -/
theorem checks_of_moveSource (s : State) (sreg : BitVec 5) (smode : BitVec 2) (w : Width) (v : Word)
    (h : MoveSource s sreg smode w v) :
    checkOperand s.params .source sreg smode w = .ok (namedOperand sreg smode) ∧
      resolveSource s (namedOperand sreg smode) w = .ok v := by
  obtain ⟨r, hr, hmodes⟩ := h
  have hkind : kindMatches sreg smode = true := by
    refine kindMatches_of_codes sreg smode (by rw [hr]; rfl) ?_
    obtain ⟨hm, hlo, hhi, -⟩ | ⟨hm, hlo, -⟩ | ⟨hm, hlo, -⟩ := hmodes
    · exact .inl ⟨hm, hlo, hhi⟩
    · exact .inr (.inl ⟨hm, hlo⟩)
    · exact .inr (.inr ⟨hm, hlo⟩)
  have hwidth : smode.toNat = 2 → w = .long ∨ indirectWidthChecked s.params .source = false := by
    rw [indirectWidthChecked_source]
    obtain ⟨rfl, -⟩ | ⟨rfl, -⟩ | ⟨-, -, hrule, -⟩ := hmodes
    · exact fun h => nomatch h
    · exact fun h => nomatch h
    · exact fun _ => hrule.imp_right fun hnone => by simpa using hnone
  obtain ⟨h3, hcheck⟩ := checkOperand_of_passes s.params .source sreg smode w r hr hkind hwidth
  rw [namedOperand, hr]
  refine ⟨hcheck, (resolveSource_eq s r smode w h3).trans ?_⟩
  obtain ⟨rfl, -, -, rfl⟩ | ⟨rfl, -, rfl⟩ | ⟨rfl, -, -, hallowed, rfl⟩ := hmodes
  · rfl
  · rfl
  · exact (if_pos rfl).trans (if_pos hallowed)

/-- The codes of a direct destination: a data register in mode 0, an address register in mode 1 (R142). -/
def DirectCodes (dreg : BitVec 5) (dmode : BitVec 2) : Prop :=
  dmode = 0 ∧ 4 ≤ dreg.toNat ∧ dreg.toNat ≤ 11 ∨ dmode = 1 ∧ 12 ≤ dreg.toNat

/-- The codes of a direct destination suit each other. -/
theorem kindMatches_of_directCodes (dreg : BitVec 5) (dmode : BitVec 2) (rd : RegId) (hrd : RegId.ofCode dreg = some rd)
    (h : DirectCodes dreg dmode) : kindMatches dreg dmode = true :=
  kindMatches_of_codes dreg dmode (by rw [hrd]; rfl) (h.imp_right .inl)

/-- A direct destination is not SR. -/
theorem ne_sr_of_directCodes (dreg : BitVec 5) (dmode : BitVec 2) (rd : RegId) (hrd : RegId.ofCode dreg = some rd)
    (h : DirectCodes dreg dmode) : rd ≠ .sr := fun hsr =>
  ofCode_ne_sr_of_kindMatches dreg dmode (kindMatches_of_directCodes dreg dmode rd hrd h) (hrd.trans (congrArg some hsr))

section
variable (s : State) (dreg : BitVec 5) (dmode : BitVec 2) (sreg : BitVec 5) (smode : BitVec 2) (c : BitVec 3) (w : Width) (v : Word)

/-- A MOVE whose operands pass their checks, and are not both indirect, comes to its sized store and the flags (R155). -/
theorem moveCommand_of_checks (dst : Operand) (hw : Width.ofCode c = some w) (hsource : MoveSource s sreg smode w v)
    (hdst : checkOperand s.params .destination dreg dmode w = .ok dst) (hboth : ¬ (smode = 2 ∧ dmode = 2)) :
    moveCommand dreg dmode sreg smode c s =
      (storeSized (resolveDestination s dst) v w s).bind fun x => .ok (x.1.withSr (moveFlags s.params x.2 w x.1.regs.sr), 0) := by
  obtain ⟨hsrc, hv⟩ := checks_of_moveSource s sreg smode w v hsource
  rw [← bothIndirect_iff s.params w sreg dreg smode dmode _ dst hsrc hdst] at hboth
  rw [moveCommand, checkWidth_of_some c w hw, ok_bind, hsrc, ok_bind, hv, ok_bind, hdst, ok_bind,
    (checkNotBothIndirect_ok_iff _ dst).mpr hboth]
  rfl

/-- MOVE to a register completes with the merge and its flags (R146, R147, R155). -/
theorem exec_move_direct (rd : RegId) (hh : s.halted = false) (hw : Width.ofCode c = some w)
    (hsource : MoveSource s sreg smode w v) (hrd : RegId.ofCode dreg = some rd) (hdirect : DirectCodes dreg dmode) :
    exec (.move dreg dmode sreg smode c) s = .next (((s.writeReg rd (merge (s.readReg rd) v w)).withSr
      (moveFlags s.params (merge (s.readReg rd) v w) w s.regs.sr)).respond (.ok 0)) := by
  have hkind := kindMatches_of_directCodes dreg dmode rd hrd hdirect
  have hmode : dmode ≠ 2 ∧ dmode.toNat ≠ 2 := by
    obtain ⟨rfl, -⟩ | ⟨rfl, -⟩ := hdirect <;> decide
  have hsr := ne_sr_of_directCodes dreg dmode rd hrd hdirect
  obtain ⟨h3, hdst⟩ := checkOperand_of_passes s.params .destination dreg dmode w rd hrd hkind fun h => absurd h hmode.2
  rw [exec_move]
  refine perform_ok _ s _ 0 hh ?_
  rw [moveCommand_of_checks s dreg dmode sreg smode c w v _ hw hsource hdst fun h => hmode.1 h.2,
    storeSized_eq s rd dmode v w h3, if_neg hmode.2, Except.bind, writeReg_sr_of_ne s rd _ hsr]

/-- MOVE to memory completes with the bytes at the pointer and the flags of the value (R147, R148, R155, R159). -/
theorem exec_move_indirect (rd : RegId) (hh : s.halted = false) (hw : Width.ofCode c = some w)
    (hsource : MoveSource s sreg smode w v) (hsmode : smode ≠ 2) (hrd : RegId.ofCode dreg = some rd) (hdreg : 12 ≤ dreg.toNat)
    (hrule : w = .long ∨ s.params.indirectWidthRule ≠ .both) (hallowed : AccessAllowed s.params (s.readReg rd) w .write) :
    exec (.move dreg 2 sreg smode c) s =
      .next (((s.withMem (Memory.writeBytes s.mem (s.readReg rd).toNat (bigEndianBytes w v))).withSr
        (moveFlags s.params v w s.regs.sr)).respond (.ok 0)) := by
  have hmode : (2 : BitVec 2).toNat = 2 := rfl
  have hkind := kindMatches_of_codes dreg 2 (by rw [hrd]; rfl) (.inr (.inr ⟨rfl, hdreg⟩))
  have hwidth : w = .long ∨ indirectWidthChecked s.params .destination = false := by
    rw [indirectWidthChecked_destination]
    exact hrule.imp_right decide_eq_false
  obtain ⟨h3, hdst⟩ := checkOperand_of_passes s.params .destination dreg 2 w rd hrd hkind fun _ => hwidth
  rw [exec_move]
  refine perform_ok _ s _ 0 hh ?_
  rw [moveCommand_of_checks s dreg 2 sreg smode c w v _ hw hsource hdst fun h => hsmode h.1,
    storeSized_eq s rd 2 v w h3, if_pos hmode, if_pos hallowed, Except.bind, moveFlags_truncTo, withMem_regs]
end

/-! ### What a completed MOVE leaves alone -/

section
variable (s u : State) (d : Word) (dreg : BitVec 5) (dmode : BitVec 2) (sreg : BitVec 5) (smode : BitVec 2) (c : BitVec 3)

/-- MOVE leaves every cell but SR and, with a direct destination, the destination's (R146, R147, R160). -/
theorem effect_move_get (rd : RegId) (cell : RegCell) (h : Effect (.move dreg dmode sreg smode c) s u d)
    (hrd : RegId.ofCode dreg = some rd) (hsr : cell ≠ .sr) (hcell : dmode = 2 ∨ cell ≠ registerCell rd s.supervisor) :
    u.regs.get cell = s.regs.get cell := by
  obtain ⟨w, rd', v, r, -, hrd', -, -, -, ⟨hmode, -, rfl⟩ | ⟨-, -, -, rfl⟩⟩ := move_effect_cases _ _ _ _ _ _ _ _ h
  · obtain rfl : rd = rd' := Option.some.inj (hrd.symm.trans hrd')
    rw [withSr_regs, get_withSr _ _ _ hsr, get_writeReg_other s rd r cell (hcell.resolve_left hmode)]
  · exact get_withSr cell s.regs _ hsr

/-- MOVE leaves SR above N (R160). -/
theorem effect_move_sr (j : Nat) (h : Effect (.move dreg dmode sreg smode c) s u d) (hlo : 4 ≤ j) (hj : j < 16) :
    u.regs.sr.getLsbD j = s.regs.sr.getLsbD j := by
  obtain ⟨w, _, _, r, -, -, -, -, -, ⟨-, -, rfl⟩ | ⟨-, -, -, rfl⟩⟩ := move_effect_cases _ _ _ _ _ _ _ _ h <;>
    exact getLsbD_moveFlags_of_gt _ r w _ j hlo hj

/-- The command stores to no byte outside the pointer's `WIDTH` bytes, and to none with a direct destination (R147, R148). -/
theorem not_storesTo_move (x : Nat) (h : dmode ≠ 2 ∨ ∀ rd, RegId.ofCode dreg = some rd →
      x < (s.readReg rd).toNat ∨ (s.readReg rd).toNat + c.toNat ≤ x) : ¬ s.StoresTo (.move dreg dmode sreg smode c) x := by
  rintro ⟨hmode, rd, hrd, hlo, hhi⟩
  have hout := h.resolve_left (not_not.mpr hmode) rd hrd
  omega
end

end Sys2Proof.Proofs
end

section
/-! PROOFS. The checks of MOVE in the order of spec/60_exceptions.md R186: a computation that takes the error of the first check of
a list that fails, and MOVE as the sequence of such computations. -/

namespace Sys2Proof.Proofs

open Sys2Proof Sys2Proof.Machine

/-! ### The first failing check -/

/-- The computation takes the error of the first check that fails, and where none fails it comes to a value with this property. -/
def Reports {α : Type} (Q : α → Prop) (checks : List (Bool × Error)) (x : Except Error α) : Prop :=
  match firstError checks with
  | some e => x = .error e
  | none => ∃ a, x = .ok a ∧ Q a

/-- No check, and a value. -/
theorem reports_nil {α : Type} {Q : α → Prop} (a : α) (h : Q a) : Reports Q [] (.ok a) := ⟨a, rfl, h⟩

/-- One check more, before the others. -/
theorem reports_cons {α : Type} {Q : α → Prop} {b : Bool} {e : Error} {checks : List (Bool × Error)} {x : Except Error α}
    (hfail : b = true → x = .error e) (hpass : b = false → Reports Q checks x) : Reports Q ((b, e) :: checks) x := by
  cases b with
  | true => exact hfail rfl
  | false => exact hpass rfl

/-- The first error of two lists of checks. -/
theorem firstError_append (l l' : List (Bool × Error)) : firstError (l ++ l') = (firstError l).or (firstError l') := by
  rw [firstError, List.find?_append, Option.map_or]
  rfl

/-- Two computations in sequence report their checks in sequence. -/
theorem Reports.bind {α β : Type} {P : α → Prop} {Q : β → Prop} {l l' : List (Bool × Error)} {x : Except Error α}
    {f : α → Except Error β} (hx : Reports P l x) (hf : ∀ a, P a → Reports Q l' (f a)) : Reports Q (l ++ l') (x.bind f) := by
  unfold Reports at hx
  rw [Reports, firstError_append]
  cases hl : firstError l with
  | some e => rw [hl] at hx; rw [hx]; rfl
  | none =>
    rw [hl] at hx
    obtain ⟨a, rfl, ha⟩ := hx
    exact hf a ha

/-! ### The checks of MOVE -/

/-- A width code fails its check exactly when it is not 1, 2 or 4 (R90). -/
theorem reports_checkWidth (c : BitVec 3) :
    Reports (fun w => Width.ofCode c = some w)
      [(decide (c.toNat ≠ 1 ∧ c.toNat ≠ 2 ∧ c.toNat ≠ 4), .invariant .invalidWidth)] (checkWidth c) := by
  obtain ⟨hnone, hc⟩ | ⟨w, hw, hc⟩ := widthOfCode_cases c
  · refine reports_cons (fun _ => ?_) fun h => absurd hc (of_decide_eq_false h)
    rw [checkWidth, hnone]
  · rw [checkWidth_of_some c w hw]
    refine reports_cons (fun h => ?_) fun _ => reports_nil w hw
    obtain ⟨h1, h2, h4⟩ := of_decide_eq_true h
    cases w with
    | byte => exact absurd hc h1
    | word => exact absurd hc h2
    | long => exact absurd hc h4

/-- The checks of one operand, where INDIRECT_WIDTH_RULE applies to it or not (R140–R143). -/
def operandChecks (reg : BitVec 5) (mode : BitVec 2) (c : BitVec 3) (applies : Bool) : List (Bool × Error) :=
  [ (decide (mode.toNat = 3), .invariant .invalidMode),
    (decide (20 ≤ reg.toNat), .invariant .invalidRegister),
    (!kindMatches reg mode, .invariant .registerModeMismatch),
    (decide (mode.toNat = 2) && decide (c.toNat ≠ 4) && applies, .invariant .indirectWidth) ]

/-- The width code is not 4 exactly when the width is not the longword (R90). -/
theorem widthCode_ne_four_iff (c : BitVec 3) (w : Width) (h : Width.ofCode c = some w) : c.toNat ≠ 4 ↔ w ≠ .long := by
  rw [← widthOfCode_bytes c w h]
  cases w <;> decide

/-- The operand checks come in the order mode, register, kind, indirect width (R186), and a mode that passes is not 3. -/
theorem reports_checkOperand (p : Params) (role : Role) (reg : BitVec 5) (mode : BitVec 2) (c : BitVec 3) (w : Width)
    (hw : Width.ofCode c = some w) :
    Reports (fun op => op = namedOperand reg mode ∧ mode.toNat ≠ 3) (operandChecks reg mode c (indirectWidthChecked p role))
      (checkOperand p role reg mode w) := by
  have hwide : (decide (mode.toNat = 2) && decide (c.toNat ≠ 4) && indirectWidthChecked p role) = true ↔
      mode.toNat = 2 ∧ w ≠ .long ∧ indirectWidthChecked p role = true := by
    rw [Bool.and_eq_true, Bool.and_eq_true, decide_eq_true_iff, decide_eq_true_iff, widthCode_ne_four_iff c w hw, and_assoc]
  rw [checkOperand_eq]
  refine reports_cons (fun h => if_pos (of_decide_eq_true h)) fun hmode => ?_
  rw [if_neg (of_decide_eq_false hmode)]
  refine reports_cons (fun h => if_pos (of_decide_eq_true h)) fun hreg => ?_
  rw [if_neg (of_decide_eq_false hreg)]
  refine reports_cons (fun h => if_pos ((Bool.not_eq_true' _).mp h)) fun hkind => ?_
  rw [if_neg (fun h => by rw [h] at hkind; cases hkind)]
  refine reports_cons (fun h => if_pos (hwide.mp h)) fun hrule => ?_
  rw [if_neg (fun h => nomatch (hwide.mpr h).symm.trans hrule)]
  exact reports_nil _ ⟨rfl, of_decide_eq_false hmode⟩

/-- An access made only where the mode is indirect fails exactly where it is made and not allowed. -/
theorem reports_access {α : Type} (mode : BitVec 2) (Allowed : Prop) [Decidable Allowed] (e : Error) (a b : α) :
    Reports (fun _ => True) [(decide (mode.toNat = 2 ∧ ¬ Allowed), e)]
      (if mode.toNat = 2 then if Allowed then .ok a else .error e else .ok b) := by
  refine reports_cons (fun h => ?_) fun h => ?_
  · obtain ⟨hind, hno⟩ := of_decide_eq_true h
    rw [if_pos hind, if_neg hno]
  · by_cases hind : mode.toNat = 2
    · have hallowed : Allowed := not_not.mp fun hno => of_decide_eq_false h ⟨hind, hno⟩
      rw [if_pos hind, if_pos hallowed]
      exact reports_nil a trivial
    · rw [if_neg hind]
      exact reports_nil b trivial

/-- Reading the source fails exactly where the read of an indirect one is not allowed (R144, R148). -/
theorem reports_resolveSource (s : State) (reg : BitVec 5) (mode : BitVec 2) (w : Width) (h3 : mode.toNat ≠ 3) :
    let ptr := s.readReg ((RegId.ofCode reg).getD .pc)
    Reports (fun _ => True) [(decide (mode.toNat = 2 ∧ ¬ AccessAllowed s.params ptr w .read), .busFault ptr w .read)]
      (resolveSource s (namedOperand reg mode) w) := by
  rw [namedOperand, resolveSource_eq s _ mode w h3]
  exact reports_access mode _ _ _ _

/-- The sized store fails exactly where the write to an indirect destination is not allowed (R147, R148). -/
theorem reports_storeSized (s : State) (reg : BitVec 5) (mode : BitVec 2) (v : Word) (w : Width) (h3 : mode.toNat ≠ 3) :
    let ptr := s.readReg ((RegId.ofCode reg).getD .pc)
    Reports (fun _ => True) [(decide (mode.toNat = 2 ∧ ¬ AccessAllowed s.params ptr w .write), .busFault ptr w .write)]
      (storeSized (resolveDestination s (namedOperand reg mode)) v w s) := by
  rw [namedOperand, storeSized_eq s _ mode v w h3]
  exact reports_access mode _ _ _ _

/-- The ban on two indirect operands, by their mode codes (R157). -/
theorem reports_checkNotBothIndirect (sreg dreg : BitVec 5) (smode dmode : BitVec 2) (hs : smode.toNat ≠ 3)
    (hd : dmode.toNat ≠ 3) :
    Reports (fun _ => True) [(decide (smode.toNat = 2 ∧ dmode.toNat = 2), .invariant .indirectToIndirect)]
      (checkNotBothIndirect (namedOperand sreg smode) (namedOperand dreg dmode)) := by
  rw [namedOperand, namedOperand, checkNotBothIndirect_eq _ _ smode dmode hs hd]
  refine reports_cons (fun h => if_pos (of_decide_eq_true h)) fun h => ?_
  rw [if_neg (of_decide_eq_false h)]
  exact reports_nil _ trivial

/-- MOVE's checks come in the order of R186, and with all of them passed it completes with the datum 0 (R155). -/
theorem reports_moveCommand (s : State) (dreg : BitVec 5) (dmode : BitVec 2) (sreg : BitVec 5) (smode : BitVec 2) (c : BitVec 3) :
    Reports (fun x => x.2 = 0) (moveCheckList s dreg dmode sreg smode c) (moveCommand dreg dmode sreg smode c s) := by
  unfold moveCheckList
  refine (reports_checkWidth c).bind fun w hw => ?_
  rw [hw, Option.getD_some, ← indirectWidthChecked_source, ← indirectWidthChecked_destination]
  refine (reports_checkOperand s.params .source sreg smode c w hw).bind fun src hsrc => ?_
  obtain ⟨rfl, hsmode⟩ := hsrc
  refine (reports_resolveSource s sreg smode w hsmode).bind fun v _ => ?_
  refine (reports_checkOperand s.params .destination dreg dmode c w hw).bind fun dst hdst => ?_
  obtain ⟨rfl, hdmode⟩ := hdst
  refine (reports_checkNotBothIndirect sreg dreg smode dmode hsmode hdmode).bind fun _ _ => ?_
  exact (reports_storeSized s dreg dmode v w hdmode).bind fun x _ => reports_nil _ rfl

end Sys2Proof.Proofs
end

section
/-! PROOFS. The statements of spec/43_addressing_modes.md: MOVE into a register, into memory and of a register to itself
(R144–R148, R155, R162), its errors in their order (R186), and its frame. -/

namespace Sys2Proof.Proofs

open Sys2Proof Sys2Proof.Machine

/-- Settles O33: the result is the merge. -/
theorem moveToRegisterMergesTheValue : Obligations.MoveToRegisterMergesTheValue := by
  unfold Obligations.MoveToRegisterMergesTheValue
  intro s dreg dmode sreg smode c w v rd hh hw hsource hrd hdirect
  exact ⟨merge (s.readReg rd) v w, _, exec_move_direct s dreg dmode sreg smode c w v rd hh hw hsource hrd hdirect,
    getLsbD_merge (s.readReg rd) v w, flagsAfterMove_moveFlags s.params _ w s.regs.sr⟩

/-- Settles O34: memory is that of the sized write, inside a canonical store. -/
theorem moveToMemoryStoresTheValue : Obligations.MoveToMemoryStoresTheValue := by
  unfold Obligations.MoveToMemoryStoresTheValue
  intro s dreg sreg smode c w v rd hh hm hw hsource hsmode hrd hdreg hrule hallowed
  have hbounds : (s.readReg rd).toNat + w.bytes ≤ capacity := hallowed.1
  exact ⟨_, _, exec_move_indirect s dreg sreg smode c w v rd hh hw hsource hsmode hrd hdreg hrule hallowed,
    fun k hk => readByte_sizedWrite_same s.mem _ k w v hm hbounds hk,
    fun x hx => readByte_sizedWrite_other s.mem _ x w v hx, flagsAfterMove_moveFlags s.params v w s.regs.sr⟩

/-- Settles O35: the list is that of the checks MOVE makes, in its order. -/
theorem moveReportsItsFirstError : Obligations.MoveReportsItsFirstError := by
  unfold Obligations.MoveReportsItsFirstError
  intro s dreg dmode sreg smode c hh
  have hreports := reports_moveCommand s dreg dmode sreg smode c
  unfold Reports at hreports
  rw [exec_move]
  cases hfirst : firstError (moveCheckList s dreg dmode sreg smode c) with
  | some e =>
    rw [hfirst] at hreports
    exact perform_error _ s e hh hreports
  | none =>
    rw [hfirst] at hreports
    obtain ⟨⟨t, d⟩, hok, rfl⟩ := hreports
    exact ⟨_, perform_ok _ s t 0 hh hok, rfl⟩

/-- Settles O37: the merge of the register into itself is the register, so the write leaves the state. -/
theorem moveToItselfChangesOnlyFlags : Obligations.MoveToItselfChangesOnlyFlags := by
  unfold Obligations.MoveToItselfChangesOnlyFlags
  intro s reg mode c w r hh hw hr hdirect
  have hsource : MoveSource s reg mode w (s.readReg r) := by
    refine ⟨r, hr, ?_⟩
    obtain ⟨hm, hlo, hhi⟩ | ⟨hm, hlo⟩ := hdirect
    · exact .inl ⟨hm, hlo, hhi, rfl⟩
    · exact .inr (.inl ⟨hm, hlo, rfl⟩)
  have hsr := ne_sr_of_directCodes reg mode r hr hdirect
  have hmove := exec_move_direct s reg mode reg mode c w (s.readReg r) r hh hw hsource hr hdirect
  rw [merge_self, writeReg_readReg_self s r hsr] at hmove
  exact ⟨_, hmove, flagsAfterMove_moveFlags s.params (s.readReg r) w s.regs.sr⟩

/-- Settles O57: MOVE changes nothing, or has its effect, which is in its destination and the flags. -/
theorem frameOfMove : Obligations.FrameOfMove := by
  unfold Obligations.FrameOfMove
  intro s t dreg dmode sreg smode c h
  have hlatch := fun d => exec_ok_keeps_latch _ s t d h
  obtain ⟨hp, hi, ⟨hr, hm, hl⟩ | ⟨u, d, hu, hr, hm, hl⟩⟩ := exec_state_cases _ s t h
  · rw [hr, hm, hl]
    exact ⟨fun _ _ _ => rfl, fun _ _ _ _ _ => rfl, fun _ _ => rfl, rfl, hp, hi, hlatch⟩
  · rw [hr, hm, hl]
    exact ⟨fun j hlo hj => effect_move_sr s u d dreg dmode sreg smode c j hu hlo hj,
      fun rd cell hrd hsr hcell => effect_move_get s u d dreg dmode sreg smode c rd cell hu hrd hsr hcell,
      fun x hx => effect_readByte _ s u d x hu (not_storesTo_move s dreg dmode sreg smode c x hx),
      effect_life _ s u d hu (fun h => nomatch h), hp, hi, hlatch⟩

end Sys2Proof.Proofs
end

section
/-! PROOFS. The statement of spec/44_move.md: a MOVE from memory to memory is an error (R157). -/

namespace Sys2Proof.Proofs

open Sys2Proof Sys2Proof.Machine

/-- The ban on two indirect operands, of operands that are both indirect (R157). -/
theorem checkNotBothIndirect_of_indirect (src dst : Operand) (h : src.mode = .indirect ∧ dst.mode = .indirect) :
    checkNotBothIndirect src dst = .error (.invariant .indirectToIndirect) := by
  obtain ⟨hsrc, hdst⟩ := h
  rw [checkNotBothIndirect, hsrc, hdst]
  rfl

/-- A memory-to-memory MOVE with its source read and its destination checked ends at the ban, before the store (R157, R186). -/
theorem moveCommand_of_bothIndirect (s : State) (dreg sreg : BitVec 5) (c : BitVec 3) (w : Width) (v : Word) (dst : Operand)
    (hw : Width.ofCode c = some w) (hsource : MoveSource s sreg 2 w v)
    (hdst : checkOperand s.params .destination dreg 2 w = .ok dst) :
    moveCommand dreg 2 sreg 2 c s = .error (.invariant .indirectToIndirect) := by
  obtain ⟨hsrc, hv⟩ := checks_of_moveSource s sreg 2 w v hsource
  have hboth := (bothIndirect_iff s.params w sreg dreg 2 2 _ dst hsrc hdst).mpr ⟨rfl, rfl⟩
  rw [moveCommand, checkWidth_of_some c w hw, ok_bind, hsrc, ok_bind, hv, ok_bind, hdst, ok_bind,
    checkNotBothIndirect_of_indirect _ dst hboth, error_bind]

/-- Settles O36: both operands pass their own checks, so the first error is that of the ban on two indirect operands. -/
theorem memoryToMemoryMoveIsRejected : Obligations.MemoryToMemoryMoveIsRejected := by
  unfold Obligations.MemoryToMemoryMoveIsRejected
  intro s dreg sreg rs c w hh hw hrule hrs hsreg hdreg hdreg' hallowed
  have hsource : MoveSource s sreg 2 w (Memory.readSized s.mem (s.readReg rs).toNat w) :=
    ⟨rs, hrs, .inr (.inr ⟨rfl, hsreg, hrule, hallowed, rfl⟩)⟩
  obtain ⟨rd, hrd, -⟩ := checkRegister_of_lt dreg hdreg'
  have hkind := kindMatches_of_codes dreg 2 (by rw [hrd]; rfl) (.inr (.inr ⟨rfl, hdreg⟩))
  have hwidth : w = .long ∨ indirectWidthChecked s.params .destination = false := by
    rw [indirectWidthChecked_destination]
    exact hrule.imp_right fun hnone => by rw [hnone]; rfl
  obtain ⟨-, hdst⟩ := checkOperand_of_passes s.params .destination dreg 2 w rd hrd hkind fun _ => hwidth
  have hmove := moveCommand_of_bothIndirect s dreg sreg c w _ _ hw hsource hdst
  refine ⟨?_, raise_regs s _, raise_mem s _⟩
  rw [exec_move]
  exact perform_error _ s _ hh hmove

end Sys2Proof.Proofs
end

section
/-! PROOFS. The statement of spec/45_bootstrap.md: Ready is permanent, and only BOOTSTRAP enters it (R29, R177). -/

namespace Sys2Proof.Proofs

open Sys2Proof Sys2Proof.Machine

/-- A step that performs BOOTSTRAP gives a Ready state (R175). -/
theorem step_life_of_bootstrap (s t : State) (h : step s = .next t) (hb : s.Performs .bootstrap) : t.life = .ready := by
  obtain ⟨hh, p, rest, hp, hd⟩ := hb
  rw [step_of_decode_ok s p rest _ hp hd, exec_bootstrap_eq { s with inbox := rest } hh] at h
  cases h
  rfl

/-- Settles O44: a step that performs BOOTSTRAP gives a Ready state, and any other step leaves the lifecycle. -/
theorem onlyBootstrapChangesTheLifecycle : Obligations.OnlyBootstrapChangesTheLifecycle := by
  unfold Obligations.OnlyBootstrapChangesTheLifecycle
  intro s t h
  by_cases hboot : s.Performs .bootstrap
  · have hready := step_life_of_bootstrap s t h hboot
    exact ⟨fun _ => hready, fun _ => ⟨hboot, hready⟩⟩
  · have hkept := step_life s t h hboot
    exact ⟨hkept.trans, fun hchanged => absurd hkept hchanged⟩

end Sys2Proof.Proofs
end

section
/-! PROOFS. The statements of spec/60_exceptions.md: an error changes nothing but the response and the latch (R183, R184), and a
halted block performs nothing (R185). -/

namespace Sys2Proof.Proofs

open Sys2Proof Sys2Proof.Machine

/-- The errors that are bus faults (R182). -/
theorem isBusFault_iff (e : Error) : e.isBusFault = true ↔ ∃ a w dir, e = .busFault a w dir := by
  cases e <;> simp [Error.isBusFault]

/-- The one exemption from the latch: a bus fault in a block with BUS_FAULT_RECOVERABLE (R184). -/
theorem raise_latch (s : State) (e : Error) :
    (e.isBusFault = true ∧ s.params.busFaultRecoverable = true →
      (s.raise e).halted = s.halted ∧ (s.raise e).fault = s.fault) ∧
    (¬ (e.isBusFault = true ∧ s.params.busFaultRecoverable = true) →
      (s.raise e).halted = true ∧ (s.raise e).fault = some e) := by
  constructor
  · rintro ⟨hbus, hrecoverable⟩
    rw [raise_of_recoverable s e hbus hrecoverable]
    exact ⟨rfl, rfl⟩
  · intro hlatched
    rw [raise_of_latched s e (by simpa only [not_and_or, Bool.not_eq_true] using hlatched)]
    exact ⟨rfl, rfl⟩

/-- A packet answered with a STATUS other than OK in a block that is not halted is answered with an error, and taking that error is
all the step does (R183). -/
theorem step_raises_of_status_ne_zero (s t : State) (p : Packet) (rest : List Packet) (r : Response) (hrun : s.halted = false)
    (hinbox : s.inbox = p :: rest) (hstep : step s = .next t) (hr : t.response = some r) (hstatus : r.status ≠ 0) :
    ∃ e, r = .ofError e ∧ t = State.raise e { s with inbox := rest } := by
  obtain ⟨hnone, -⟩ | ⟨p', rest', s', hinbox', rfl, hcase⟩ := step_effect_cases s t hstep
  · exact nomatch hinbox.symm.trans hnone
  obtain ⟨rfl, rfl⟩ : p = p' ∧ rest = rest' := List.cons.inj (hinbox.symm.trans hinbox')
  obtain ⟨hhalt, -⟩ | ⟨-, e, -, rfl⟩ | ⟨-, i, u, d, -, -, rfl⟩ := hcase
  · exact nomatch hrun.symm.trans hhalt
  · exact ⟨e, Option.some.inj (hr.symm.trans (raise_response _ e)), rfl⟩
  · cases hr
    exact absurd rfl hstatus

/-- Settles O11: the step takes an error, which keeps the state and sets the latch but for R184's exemption. -/
theorem errorsHaveNoOtherEffect : Obligations.ErrorsHaveNoOtherEffect := by
  unfold Obligations.ErrorsHaveNoOtherEffect
  intro s t p rest r hrun hinbox hstep hr hstatus
  obtain ⟨e, hre, rfl⟩ := step_raises_of_status_ne_zero s t p rest r hrun hinbox hstep hr hstatus
  refine ⟨raise_regs _ e, raise_mem _ e, raise_life _ e, raise_params _ e, raise_inbox _ e, e, hre, ?_⟩
  rw [← isBusFault_iff]
  exact raise_latch { s with inbox := rest } e

/-- Settles O12: a halted block performs neither the command that a packet decodes to nor the rejection of its word. -/
theorem haltedBlockPerformsNothing : Obligations.HaltedBlockPerformsNothing := by
  unfold Obligations.HaltedBlockPerformsNothing
  intro s p rest hhalt hinbox
  cases hd : decode p with
  | ok i =>
    rw [step_of_decode_ok s p rest i hinbox hd]
    exact exec_of_halted i { s with inbox := rest } hhalt
  | error e =>
    rw [step_of_decode_error s p rest e hinbox hd]
    exact perform_of_halted _ { s with inbox := rest } hhalt

end Sys2Proof.Proofs
end
